-- ==== Sys2Proof/Word.lean ====
section
/-! DEFINITION. The word types of the CHIP-8 core and the fixed sizes of 00_scope.md R8. -/

namespace Sys2Proof

/-- One memory byte, one general register (R20, R29). -/
abbrev Byte := BitVec 8

/-- An instruction word, PC, I, a call-stack entry (R8, R23, R24, R25, R51). -/
abbrev Word := BitVec 16

/-- The 12-bit address immediate NNN (R51). -/
abbrev Addr := BitVec 12

/-- A register index: exactly the 4-bit field X or Y (R20, R52). -/
abbrev Reg := Fin 16

/-- MEM_SIZE (R8). -/
abbrev memSize : Nat := 4096

/-- PROG_BASE, the load address and the reset PC (R8). -/
abbrev progBase : Nat := 0x200

/-- STACK_CAP (R8). -/
abbrev stackCap : Nat := 16

/-- DISP_W (R8). -/
abbrev dispW : Nat := 64

/-- DISP_H (R8). -/
abbrev dispH : Nat := 32

/-- NUM_KEYS (R8). -/
abbrev numKeys : Nat := 16

/-- FONT_DATA holds 5 bytes for each of 16 digits (R31). -/
abbrev fontSize : Nat := 80

end Sys2Proof
end

