-- ==== Sys2Proof/Syntax.lean ====
section
/-! DEFINITION. The 34 instructions: one constructor for each row of spec/opcode_table.json, in the table's order. -/

namespace Sys2Proof

/-- An instruction of 30_encoding.md R55, with the operand fields of R51. -/
inductive Instr where
  /-- 00E0 clear the display (R94) -/
  | cls
  /-- 00EE return from subroutine (R64) -/
  | ret
  /-- 1NNN jump (R65) -/
  | jp (nnn : Addr)
  /-- 2NNN call (R66) -/
  | call (nnn : Addr)
  /-- 3XNN skip if VX = NN (R67) -/
  | seImm (x : Reg) (nn : Byte)
  /-- 4XNN skip if VX differs from NN (R68) -/
  | sneImm (x : Reg) (nn : Byte)
  /-- 5XY0 skip if VX = VY (R69) -/
  | seReg (x y : Reg)
  /-- 6XNN VX <- NN (R73) -/
  | ldImm (x : Reg) (nn : Byte)
  /-- 7XNN VX <- VX + NN (R74) -/
  | addImm (x : Reg) (nn : Byte)
  /-- 8XY0 VX <- VY (R75) -/
  | ldReg (x y : Reg)
  /-- 8XY1 (R76) -/
  | orReg (x y : Reg)
  /-- 8XY2 (R77) -/
  | andReg (x y : Reg)
  /-- 8XY3 (R78) -/
  | xorReg (x y : Reg)
  /-- 8XY4 add with carry out (R79) -/
  | addReg (x y : Reg)
  /-- 8XY5 VX - VY (R80) -/
  | sub (x y : Reg)
  /-- 8XY6 shift right (R81) -/
  | shr (x y : Reg)
  /-- 8XY7 VY - VX (R82) -/
  | subn (x y : Reg)
  /-- 8XYE shift left (R83) -/
  | shl (x y : Reg)
  /-- 9XY0 skip if VX differs from VY (R70) -/
  | sneReg (x y : Reg)
  /-- ANNN I <- NNN (R86) -/
  | ldI (nnn : Addr)
  /-- BNNN jump to NNN + offset register (R71). The table's row has both fields: `x` is NNN's top nibble, the
  offset register under UseVX (log 7). -/
  | jpV0 (x : Reg) (nnn : Addr)
  /-- CXNN random byte masked by NN (R84) -/
  | rnd (x : Reg) (nn : Byte)
  /-- DXYN draw an N-row sprite (R95); `n` is the row count 0..15 -/
  | drw (x y : Reg) (n : Fin 16)
  /-- EX9E skip if key VX is pressed (R97) -/
  | skp (x : Reg)
  /-- EXA1 skip if key VX is not pressed (R98) -/
  | sknp (x : Reg)
  /-- FX07 VX <- DT (R99) -/
  | ldVxDt (x : Reg)
  /-- FX0A wait for a key (R100) -/
  | ldVxK (x : Reg)
  /-- FX15 DT <- VX (R101) -/
  | ldDtVx (x : Reg)
  /-- FX18 ST <- VX (R102) -/
  | ldStVx (x : Reg)
  /-- FX1E I <- I + VX (R87) -/
  | addI (x : Reg)
  /-- FX29 I <- font address of digit VX (R88) -/
  | ldF (x : Reg)
  /-- FX33 BCD of VX (R89) -/
  | ldB (x : Reg)
  /-- FX55 store V0..VX (R90) -/
  | ldMemStore (x : Reg)
  /-- FX65 load V0..VX (R91) -/
  | ldMemLoad (x : Reg)
  deriving DecidableEq, Repr

end Sys2Proof
end

