-- ==== Sys2Proof/WellFormed.lean ====
section
/-! DEFINITION. The one check on instructions: every field but one has exactly its encoding's range by its type. -/

namespace Sys2Proof

/-- The top nibble of an address immediate, w[11:8] of its word (R54, R71). -/
def topNibble (nnn : Addr) : Reg := (nnn.extractLsb' 8 4).toFin

/-- BNNN's two fields overlap (30_encoding.md R54, 40_control_flow.md R71): X is NNN's top nibble.
All other operands have their field's range as their type, so nothing else can be ill-formed. -/
def wellFormed : Instr → Bool
  | .jpV0 x nnn => decide (x = topNibble nnn)
  | .cls | .ret | .jp _ | .call _ | .seImm _ _ | .sneImm _ _ | .seReg _ _ | .ldImm _ _ | .addImm _ _
  | .ldReg _ _ | .orReg _ _ | .andReg _ _ | .xorReg _ _ | .addReg _ _ | .sub _ _ | .shr _ _ | .subn _ _
  | .shl _ _ | .sneReg _ _ | .ldI _ | .rnd _ _ | .drw _ _ _ | .skp _ | .sknp _ | .ldVxDt _ | .ldVxK _
  | .ldDtVx _ | .ldStVx _ | .addI _ | .ldF _ | .ldB _ | .ldMemStore _ | .ldMemLoad _ => true

end Sys2Proof
end

