-- ==== Sys2Proof/Decode.lean ====
section
/-! DEFINITION. Fields, decoder and encoder (30_encoding.md R51 to R60). Decode reads no state and is total: every
word is an instruction of R55 or illegal under R56, rejected by the name of R56's row. -/

namespace Sys2Proof

/-- The rows of R56's table of illegal words. All of them raise InvalidOpcode. -/
inductive Illegal where
  /-- 0NNN other than 00E0 and 00EE: historical SYS (R57) -/
  | sys
  /-- 5XYn with n not 0 -/
  | family5
  /-- 8XYn with n in 8, 9, A, B, C, D, F -/
  | family8
  /-- 9XYn with n not 0 -/
  | family9
  /-- EXkk with kk not 9E or A1 -/
  | familyE
  /-- FXkk with an unassigned kk -/
  | familyF
  deriving DecidableEq, Repr

/-- `op = w[15:12]` (R51). -/
def fieldOp (w : Word) : BitVec 4 := w.extractLsb' 12 4
/-- `X = w[11:8]` (R51). -/
def fieldX (w : Word) : Reg := (w.extractLsb' 8 4).toFin
/-- `Y = w[7:4]` (R51). -/
def fieldY (w : Word) : Reg := (w.extractLsb' 4 4).toFin
/-- `N = w[3:0]` (R51). -/
def fieldN (w : Word) : BitVec 4 := w.extractLsb' 0 4
/-- `NN = w[7:0]` (R51). -/
def fieldNN (w : Word) : Byte := w.extractLsb' 0 8
/-- `NNN = w[11:0]` (R51). -/
def fieldNNN (w : Word) : Addr := w.extractLsb' 0 12

/-- Family 0 (R55, R57): two fixed words. -/
def decode0 (w : Word) : Except Illegal Instr :=
  if w = 0x00E0#16 then .ok .cls
  else if w = 0x00EE#16 then .ok .ret
  else .error .sys

/-- Family 5 (R55, R56): the low nibble must be 0. -/
def decode5 (w : Word) : Except Illegal Instr :=
  match (fieldN w).toNat with
  | 0x0 => .ok (.seReg (fieldX w) (fieldY w))
  | _ => .error .family5

/-- Family 8 (R55): the minor opcode is the low nibble. -/
def decode8 (w : Word) : Except Illegal Instr :=
  match (fieldN w).toNat with
  | 0x0 => .ok (.ldReg (fieldX w) (fieldY w))
  | 0x1 => .ok (.orReg (fieldX w) (fieldY w))
  | 0x2 => .ok (.andReg (fieldX w) (fieldY w))
  | 0x3 => .ok (.xorReg (fieldX w) (fieldY w))
  | 0x4 => .ok (.addReg (fieldX w) (fieldY w))
  | 0x5 => .ok (.sub (fieldX w) (fieldY w))
  | 0x6 => .ok (.shr (fieldX w) (fieldY w))
  | 0x7 => .ok (.subn (fieldX w) (fieldY w))
  | 0xE => .ok (.shl (fieldX w) (fieldY w))
  | _ => .error .family8

/-- Family 9 (R55, R56): the low nibble must be 0. -/
def decode9 (w : Word) : Except Illegal Instr :=
  match (fieldN w).toNat with
  | 0x0 => .ok (.sneReg (fieldX w) (fieldY w))
  | _ => .error .family9

/-- Family E (R55): the minor opcode is the low byte. -/
def decodeE (w : Word) : Except Illegal Instr :=
  match (fieldNN w).toNat with
  | 0x9E => .ok (.skp (fieldX w))
  | 0xA1 => .ok (.sknp (fieldX w))
  | _ => .error .familyE

/-- Family F (R55): the minor opcode is the low byte. -/
def decodeF (w : Word) : Except Illegal Instr :=
  match (fieldNN w).toNat with
  | 0x07 => .ok (.ldVxDt (fieldX w))
  | 0x0A => .ok (.ldVxK (fieldX w))
  | 0x15 => .ok (.ldDtVx (fieldX w))
  | 0x18 => .ok (.ldStVx (fieldX w))
  | 0x1E => .ok (.addI (fieldX w))
  | 0x29 => .ok (.ldF (fieldX w))
  | 0x33 => .ok (.ldB (fieldX w))
  | 0x55 => .ok (.ldMemStore (fieldX w))
  | 0x65 => .ok (.ldMemLoad (fieldX w))
  | _ => .error .familyF

/-- The opcode map (R55), by the major opcode; the last arm is op = 0xF. -/
def decode (w : Word) : Except Illegal Instr :=
  match (fieldOp w).toNat with
  | 0x0 => decode0 w
  | 0x1 => .ok (.jp (fieldNNN w))
  | 0x2 => .ok (.call (fieldNNN w))
  | 0x3 => .ok (.seImm (fieldX w) (fieldNN w))
  | 0x4 => .ok (.sneImm (fieldX w) (fieldNN w))
  | 0x5 => decode5 w
  | 0x6 => .ok (.ldImm (fieldX w) (fieldNN w))
  | 0x7 => .ok (.addImm (fieldX w) (fieldNN w))
  | 0x8 => decode8 w
  | 0x9 => decode9 w
  | 0xA => .ok (.ldI (fieldNNN w))
  | 0xB => .ok (.jpV0 (fieldX w) (fieldNNN w))
  | 0xC => .ok (.rnd (fieldX w) (fieldNN w))
  | 0xD => .ok (.drw (fieldX w) (fieldY w) (fieldN w).toFin)
  | 0xE => decodeE w
  | _ => decodeF w

/-- The word of two bytes in memory order: the first is bits 15:8 (R39, R53). -/
def wordOfBytes (b0 b1 : Byte) : Word := b0 ++ b1

/-- The two bytes of a word in memory order, most significant first (R39). -/
def bytesOfWord (w : Word) : Byte × Byte := (w.extractLsb' 8 8, w.extractLsb' 0 8)

/-- The instruction of two bytes in memory order. -/
def decodeBytes (b0 b1 : Byte) : Except Illegal Instr := decode (wordOfBytes b0 b1)

/-- op + 12-bit address (R51's shape NNN). -/
def wordNNN (op : BitVec 4) (nnn : Addr) : Word := op ++ nnn
/-- op + register + byte (R51's shapes XNN and Xkk). -/
def wordXNN (op : BitVec 4) (x : Reg) (nn : Byte) : Word := op ++ BitVec.ofFin (w := 4) x ++ nn
/-- op + two registers + nibble (R51's shapes XY0, XYn and XYN). -/
def wordXYN (op : BitVec 4) (x y : Reg) (n : BitVec 4) : Word :=
  op ++ BitVec.ofFin (w := 4) x ++ BitVec.ofFin (w := 4) y ++ n

/-- The word of an instruction, from R55's table. For BNNN the word is given by NNN alone. -/
def encode : Instr → Word
  | .cls => 0x00E0#16
  | .ret => 0x00EE#16
  | .jp nnn => wordNNN 0x1#4 nnn
  | .call nnn => wordNNN 0x2#4 nnn
  | .seImm x nn => wordXNN 0x3#4 x nn
  | .sneImm x nn => wordXNN 0x4#4 x nn
  | .seReg x y => wordXYN 0x5#4 x y 0x0#4
  | .ldImm x nn => wordXNN 0x6#4 x nn
  | .addImm x nn => wordXNN 0x7#4 x nn
  | .ldReg x y => wordXYN 0x8#4 x y 0x0#4
  | .orReg x y => wordXYN 0x8#4 x y 0x1#4
  | .andReg x y => wordXYN 0x8#4 x y 0x2#4
  | .xorReg x y => wordXYN 0x8#4 x y 0x3#4
  | .addReg x y => wordXYN 0x8#4 x y 0x4#4
  | .sub x y => wordXYN 0x8#4 x y 0x5#4
  | .shr x y => wordXYN 0x8#4 x y 0x6#4
  | .subn x y => wordXYN 0x8#4 x y 0x7#4
  | .shl x y => wordXYN 0x8#4 x y 0xE#4
  | .sneReg x y => wordXYN 0x9#4 x y 0x0#4
  | .ldI nnn => wordNNN 0xA#4 nnn
  | .jpV0 _ nnn => wordNNN 0xB#4 nnn
  | .rnd x nn => wordXNN 0xC#4 x nn
  | .drw x y n => wordXYN 0xD#4 x y (BitVec.ofFin (w := 4) n)
  | .skp x => wordXNN 0xE#4 x 0x9E#8
  | .sknp x => wordXNN 0xE#4 x 0xA1#8
  | .ldVxDt x => wordXNN 0xF#4 x 0x07#8
  | .ldVxK x => wordXNN 0xF#4 x 0x0A#8
  | .ldDtVx x => wordXNN 0xF#4 x 0x15#8
  | .ldStVx x => wordXNN 0xF#4 x 0x18#8
  | .addI x => wordXNN 0xF#4 x 0x1E#8
  | .ldF x => wordXNN 0xF#4 x 0x29#8
  | .ldB x => wordXNN 0xF#4 x 0x33#8
  | .ldMemStore x => wordXNN 0xF#4 x 0x55#8
  | .ldMemLoad x => wordXNN 0xF#4 x 0x65#8

/-- A row of spec/opcode_table.json: a word is of the row when its `mask` bits are `bits` (R59). -/
structure OpcodeRow where
  mask : Word
  bits : Word
  deriving DecidableEq, Repr

/-- The row of an instruction, from spec/opcode_table.json. -/
def opcodeRow : Instr → OpcodeRow
  | .cls => ⟨0xFFFF, 0x00E0⟩
  | .ret => ⟨0xFFFF, 0x00EE⟩
  | .jp _ => ⟨0xF000, 0x1000⟩
  | .call _ => ⟨0xF000, 0x2000⟩
  | .seImm _ _ => ⟨0xF000, 0x3000⟩
  | .sneImm _ _ => ⟨0xF000, 0x4000⟩
  | .seReg _ _ => ⟨0xF00F, 0x5000⟩
  | .ldImm _ _ => ⟨0xF000, 0x6000⟩
  | .addImm _ _ => ⟨0xF000, 0x7000⟩
  | .ldReg _ _ => ⟨0xF00F, 0x8000⟩
  | .orReg _ _ => ⟨0xF00F, 0x8001⟩
  | .andReg _ _ => ⟨0xF00F, 0x8002⟩
  | .xorReg _ _ => ⟨0xF00F, 0x8003⟩
  | .addReg _ _ => ⟨0xF00F, 0x8004⟩
  | .sub _ _ => ⟨0xF00F, 0x8005⟩
  | .shr _ _ => ⟨0xF00F, 0x8006⟩
  | .subn _ _ => ⟨0xF00F, 0x8007⟩
  | .shl _ _ => ⟨0xF00F, 0x800E⟩
  | .sneReg _ _ => ⟨0xF00F, 0x9000⟩
  | .ldI _ => ⟨0xF000, 0xA000⟩
  | .jpV0 _ _ => ⟨0xF000, 0xB000⟩
  | .rnd _ _ => ⟨0xF000, 0xC000⟩
  | .drw _ _ _ => ⟨0xF000, 0xD000⟩
  | .skp _ => ⟨0xF0FF, 0xE09E⟩
  | .sknp _ => ⟨0xF0FF, 0xE0A1⟩
  | .ldVxDt _ => ⟨0xF0FF, 0xF007⟩
  | .ldVxK _ => ⟨0xF0FF, 0xF00A⟩
  | .ldDtVx _ => ⟨0xF0FF, 0xF015⟩
  | .ldStVx _ => ⟨0xF0FF, 0xF018⟩
  | .addI _ => ⟨0xF0FF, 0xF01E⟩
  | .ldF _ => ⟨0xF0FF, 0xF029⟩
  | .ldB _ => ⟨0xF0FF, 0xF033⟩
  | .ldMemStore _ => ⟨0xF0FF, 0xF055⟩
  | .ldMemLoad _ => ⟨0xF0FF, 0xF065⟩

/-- All 34 rows, in the table's order. -/
def opcodeRows : List OpcodeRow :=
  [⟨0xFFFF, 0x00E0⟩, ⟨0xFFFF, 0x00EE⟩, ⟨0xF000, 0x1000⟩, ⟨0xF000, 0x2000⟩, ⟨0xF000, 0x3000⟩, ⟨0xF000, 0x4000⟩,
   ⟨0xF00F, 0x5000⟩, ⟨0xF000, 0x6000⟩, ⟨0xF000, 0x7000⟩, ⟨0xF00F, 0x8000⟩, ⟨0xF00F, 0x8001⟩, ⟨0xF00F, 0x8002⟩,
   ⟨0xF00F, 0x8003⟩, ⟨0xF00F, 0x8004⟩, ⟨0xF00F, 0x8005⟩, ⟨0xF00F, 0x8006⟩, ⟨0xF00F, 0x8007⟩, ⟨0xF00F, 0x800E⟩,
   ⟨0xF00F, 0x9000⟩, ⟨0xF000, 0xA000⟩, ⟨0xF000, 0xB000⟩, ⟨0xF000, 0xC000⟩, ⟨0xF000, 0xD000⟩, ⟨0xF0FF, 0xE09E⟩,
   ⟨0xF0FF, 0xE0A1⟩, ⟨0xF0FF, 0xF007⟩, ⟨0xF0FF, 0xF00A⟩, ⟨0xF0FF, 0xF015⟩, ⟨0xF0FF, 0xF018⟩, ⟨0xF0FF, 0xF01E⟩,
   ⟨0xF0FF, 0xF029⟩, ⟨0xF0FF, 0xF033⟩, ⟨0xF0FF, 0xF055⟩, ⟨0xF0FF, 0xF065⟩]

/-- The word is of the row (R59). -/
abbrev OpcodeRow.Matches (r : OpcodeRow) (w : Word) : Prop := w &&& r.mask = r.bits

/-- The bits of a table instruction as a word: only the low `nbits` of `w`, and at most 16, count; the bits above
are 0. An instruction is exactly one word (R60). -/
def tableWord (nbits w : Nat) : Word := BitVec.ofNat 16 (w % 2 ^ nbits)

/-- What the decoder reads from the bytes of the table's word, laid out most significant byte first. -/
def decodeTableWord (nbits w : Nat) : Option Instr :=
  let b := bytesOfWord (tableWord nbits w)
  match decodeBytes b.1 b.2 with
  | .ok i => some i
  | .error _ => none

end Sys2Proof
end

