-- ==== Sys2Proof/Config.lean ====
section
/-! DEFINITION. What an implementation fixes: the model parameters of 00_scope.md R9, and the one free value. -/

namespace Sys2Proof

/-- Source register of 8XY6 and 8XYE (R9, decision D4). -/
inductive ShiftQuirk where
  | useVY
  | useVX
  deriving DecidableEq, Repr

/-- What FX55 and FX65 do to I (R9, decision D5). -/
inductive LoadStoreQuirk where
  | incXPlus1
  | incX
  | unchanged
  deriving DecidableEq, Repr

/-- Offset register of BNNN (R9, decision D7). -/
inductive JumpQuirk where
  | useV0
  | useVX
  deriving DecidableEq, Repr

/-- The parameters of R9, fixed for the life of an instance (R19). `fontBase` is an address with
`fontBase + 80 <= 0x200`, so at most 432. -/
structure Config where
  shiftQuirk     : ShiftQuirk
  loadStoreQuirk : LoadStoreQuirk
  vfResetQuirk   : Bool
  jumpQuirk      : JumpQuirk
  fontBase       : Fin 433
  fontData       : Vector Byte fontSize
  deriving DecidableEq, Repr

/-- FREE VALUE (log 2): the random byte of the n-th draw of a run, under no law (R16, R84, decision D10).
It has no body, so nothing can be proved of its values. -/
opaque Config.randomByte : Nat → Byte

end Sys2Proof
end

