-- ==== Sys2Proof/Machine/Defaults.lean ====
section
/-! DEFINITION. The default values of the parameters (00_scope.md R9, 10_state.md R31) and what a byte of memory
that nothing has written holds (R32, R35). -/

namespace Sys2Proof.Machine

/-- The default FONT_DATA, 5 bytes per hex digit (R31). PRESUMED by the spec itself (G2, log 4). -/
def defaultFont : Vector Byte fontSize := #v[
  0xF0, 0x90, 0x90, 0x90, 0xF0,  0x20, 0x60, 0x20, 0x20, 0x70,
  0xF0, 0x10, 0xF0, 0x80, 0xF0,  0xF0, 0x10, 0xF0, 0x10, 0xF0,
  0x90, 0x90, 0xF0, 0x10, 0x10,  0xF0, 0x80, 0xF0, 0x10, 0xF0,
  0xF0, 0x80, 0xF0, 0x90, 0xF0,  0xF0, 0x10, 0x20, 0x40, 0x40,
  0xF0, 0x90, 0xF0, 0x90, 0xF0,  0xF0, 0x90, 0xF0, 0x10, 0xF0,
  0xF0, 0x90, 0xF0, 0x90, 0x90,  0xE0, 0x90, 0xE0, 0x90, 0xE0,
  0xF0, 0x80, 0x80, 0x80, 0xF0,  0xE0, 0x90, 0x90, 0x90, 0xE0,
  0xF0, 0x80, 0xF0, 0x80, 0xF0,  0xF0, 0x80, 0xF0, 0x80, 0x80]

/-- The defaults of R9 (logs 3 and 4). -/
def defaultConfig : Config where
  shiftQuirk     := .useVY
  loadStoreQuirk := .incXPlus1
  vfResetQuirk   := true
  jumpQuirk      := .useV0
  fontBase       := 0x050
  fontData       := defaultFont

/-- What address `a` reads as while no cell lists it: FONT_DATA at FONT_BASE, 0 elsewhere (R32, R35). -/
def resetByte (c : Config) (a : Nat) : Byte :=
  if h : c.fontBase.val ≤ a ∧ a - c.fontBase.val < fontSize then c.fontData[a - c.fontBase.val] else 0

end Sys2Proof.Machine
end

