-- ==== Sys2Proof/Machine/Memory.lean ====
section
/-! DEFINITION. Memory as plain data: a list of cells in one canonical form, read and written one byte at a time
(20_memory.md R29, R33, R42). The bounds check is in Machine/Ops.lean. -/

namespace Sys2Proof.Machine

/-- The cells that differ from the reset contents (log 5). -/
abbrev Memory := List Host.Cell

/-- The canonical form: addresses strictly rising, inside the address space, and no cell equal to what its
address reads as unlisted. -/
abbrev Memory.wf (c : Config) (m : Memory) : Prop :=
  m.Pairwise (fun p q => p.1 < q.1) ∧ ∀ p ∈ m, p.1 < memSize ∧ p.2 ≠ resetByte c p.1

/-- The byte a cell lists for `a`, if any. -/
def Memory.find : Memory → Nat → Option Byte
  | [], _ => none
  | (k, b) :: m, a => if k = a then some b else Memory.find m a

/-- The byte at `a`. -/
def Memory.get (c : Config) (m : Memory) (a : Nat) : Byte := (m.find a).getD (resetByte c a)

/-- `m` without a cell for `a`. -/
def Memory.erase (m : Memory) (a : Nat) : Memory := m.filter fun p => p.1 ≠ a

/-- `m` with the cell `(a, v)`, in its place. -/
def Memory.insert : Memory → Nat → Byte → Memory
  | [], a, v => [(a, v)]
  | (k, b) :: m, a, v =>
    if a < k then (a, v) :: (k, b) :: m
    else if k = a then (a, v) :: m
    else (k, b) :: Memory.insert m a v

/-- `m` with the byte `v` at `a`, in canonical form. -/
def Memory.set (c : Config) (m : Memory) (a : Nat) (v : Byte) : Memory :=
  if v = resetByte c a then m.erase a else m.insert a v

/-- `m` with the bytes `vs` at `a`, `a + 1`, and so on. -/
def Memory.setBytes (c : Config) (m : Memory) (a : Nat) : List Byte → Memory
  | [] => m
  | v :: vs => Memory.setBytes c (m.set c a v) (a + 1) vs

end Sys2Proof.Machine
end

