-- ==== Sys2Proof/Machine/State.lean ====
section
/-! DEFINITION. The state of the core (10_state.md R18), its reset value (R32), and how a step can stop. -/

namespace Sys2Proof.Machine

/-- The error kinds of 60_exceptions.md R105. A fault is the spec's own result `Err(kind)`: the operation ends with
no effect, the state after it is the state before it (R14, R106), so stopping is exact, not a gap (log 6). -/
inductive Fault where
  /-- code 0, raised by the host's `load` when the ROM does not fit (R49). Safe: the spec's own error. -/
  | romTooLarge
  /-- code 1, raised by fetch, DXYN, FX33, FX55, FX65 for an address of 4096 or more (R37, R53). Safe: the spec's own error. -/
  | memoryOutOfBounds
  /-- code 2, raised by CALL at depth 16 (R66). Safe: the spec's own error. -/
  | stackOverflow
  /-- code 3, raised by RET at depth 0 (R64). Safe: the spec's own error. -/
  | stackUnderflow
  /-- code 4, raised by decode for a word of no row (R56, R57). Safe: the spec's own error. -/
  | invalidOpcode
  /-- code 5, raised by EX9E, EXA1 and the host's `set_key` for an index above 15 (R97, R98, R114). Safe: the
  spec's own error. -/
  | invalidKeyIndex
  deriving DecidableEq, Repr

/-- Why the model could have no meaning for an instruction. -/
inductive Refusal where
  /-- Raised by a dispatch arm for an instruction without a meaning. No arm does: all 34 are modelled. Safe. -/
  | notModelled (mnemonic : String)
  deriving DecidableEq, Repr

/-- `fb[x][y]` is `fb[x][y]`: 64 columns of 32 pixels, true = set (R27). -/
abbrev Framebuffer := Vector (Vector Bool dispH) dispW

/-- The state record of 10_state.md R18, and two fields of the model's own (`draws`, `cfg`). -/
structure State where
  /-- V[0..15]; V[15] is VF (R20, R21) -/
  v : Vector Byte 16
  /-- the index register I (R23) -/
  i : Word
  /-- PC (R24) -/
  pc : Word
  /-- SP, the depth of the call stack, 0 to 16 (R25) -/
  sp : Fin 17
  /-- stack[0..15] (R25) -/
  stack : Vector Word stackCap
  /-- the delay timer DT (R26) -/
  dt : Byte
  /-- the sound timer ST (R26) -/
  st : Byte
  /-- the framebuffer (R27) -/
  fb : Framebuffer
  /-- the input state, true = pressed (R28) -/
  key : Vector Bool numKeys
  /-- memory (R29) -/
  mem : Memory
  /-- the model's own: how many random draws have been taken; it selects the next free value (R16, log 2) -/
  draws : Nat
  /-- the model's own: the parameters of R9, which nothing writes (R19, log 1) -/
  cfg : Config
  deriving DecidableEq, Repr

/-- The reset state of an instance with parameters `c` (R32, R121), whose next random draw is number `n`. -/
def State.resetWith (c : Config) (n : Nat) : State where
  v := Vector.replicate 16 0
  i := 0
  pc := 0x200
  sp := 0
  stack := Vector.replicate stackCap 0
  dt := 0
  st := 0
  fb := Vector.replicate dispW (Vector.replicate dispH false)
  key := Vector.replicate numKeys false
  mem := []
  draws := n
  cfg := c

/-- The machine right after reset with the default parameters (R32, R9). -/
def State.reset : State := State.resetWith defaultConfig 0

/-- What a meaning answers. -/
abbrev Answer := Host.Outcome State Fault Refusal

end Sys2Proof.Machine
end

