-- ==== Sys2Proof/Machine/Ops.lean ====
section
/-! DEFINITION. The named operations over the state: field writes, errors, the program counter, the call stack,
memory, fetch, pixels, keys, timers and the random draw. Every meaning is written over these. -/

namespace Sys2Proof.Machine

/-! ### Registers and the other fields -/

/-- `V[x]` (R12, R20). -/
def State.getV (s : State) (x : Reg) : Byte := s.v[x.val]

/-- `V[x] <- b` (R12, R20). -/
def State.setV (s : State) (x : Reg) (b : Byte) : State := { s with v := s.v.set x.val b }

/-- `I <- w` (R23). -/
def State.setI (s : State) (w : Word) : State := { s with i := w }

/-- `PC <- w` (R24); no target is checked here (R72). -/
def State.setPc (s : State) (w : Word) : State := { s with pc := w }

/-- `DT <- b` (R26). -/
def State.setDt (s : State) (b : Byte) : State := { s with dt := b }

/-- `ST <- b` (R26). -/
def State.setSt (s : State) (b : Byte) : State := { s with st := b }

/-- The framebuffer replaced (R27). -/
def State.setFb (s : State) (fb : Framebuffer) : State := { s with fb := fb }

/-- The memory replaced (R29). -/
def State.setMem (s : State) (m : Memory) : State := { s with mem := m }

/-- `key[k] <- p` (R28). -/
def State.setKeyAt (s : State) (k : Fin 16) (p : Bool) : State := { s with key := s.key.set k.val p }

/-! ### Errors -/

/-- TAKING AN ERROR, the one shared operation: the call ends at once with `Err(k)` (R14, R108). It saves nothing,
changes no mode and transfers control nowhere; the state after the call is `afterCall`. -/
def raise (k : Fault) : Answer := .fault k

/-- The state after a call that began in `s`: an error undoes the whole call, the PC advance included (R14, R106).
There is no return from an error (R109). -/
def afterCall (s : State) : Answer → State
  | .next t => t
  | .fault _ => s
  | .refused _ => s

/-- A check that may raise, and what follows it. -/
def attempt {α : Type} (r : Except Fault α) (k : α → Answer) : Answer :=
  match r with
  | .ok a => k a
  | .error e => raise e

/-- The numeric code of an error kind (R105, decision D28). -/
def faultCode : Fault → Nat
  | .romTooLarge => 0
  | .memoryOutOfBounds => 1
  | .stackOverflow => 2
  | .stackUnderflow => 3
  | .invalidOpcode => 4
  | .invalidKeyIndex => 5

/-- Every illegal word raises the same kind (R56, R57). -/
def decodeFault : Illegal → Fault
  | .sys | .family5 | .family8 | .family9 | .familyE | .familyF => .invalidOpcode

/-! ### The program counter -/

/-- `PC <- PC + 2`, between decode and execute (R63). -/
def advancePc (s : State) : State := s.setPc (s.pc + 2)

/-- A skip: `PC <- PC + 2` when the condition holds (R67 to R70, R97, R98). -/
def skipIf (b : Bool) (s : State) : State := if b then s.setPc (s.pc + 2) else s

/-- `zext_16(NNN)` (R54). -/
def zext16 (nnn : Addr) : Word := nnn.setWidth 16

/-! ### The call stack (R25) -/

/-- Push `a`, or `StackOverflow` at depth 16. -/
def push (a : Word) (s : State) : Except Fault State :=
  if h : s.sp.val < stackCap then
    .ok { s with stack := s.stack.set s.sp.val a, sp := ⟨s.sp.val + 1, Nat.succ_lt_succ h⟩ }
  else .error .stackOverflow

/-- Pop, or `StackUnderflow` at depth 0. The popped entry stays in place, where nothing can read it (log 8). -/
def pop (s : State) : Except Fault (Word × State) :=
  if h : s.sp.val = 0 then .error .stackUnderflow
  else .ok (s.stack[s.sp.val - 1]'(by have := s.sp.isLt; show _ < 16; omega),
            { s with sp := ⟨s.sp.val - 1, by have := s.sp.isLt; omega⟩ })

/-! ### Memory (R13, R34, R37, R38) -/

/-- The byte at `a`, without the bounds check: only for an `a` already checked, and for statements. -/
def State.peek (s : State) (a : Nat) : Byte := s.mem.get s.cfg a

/-- Every address of the `n` bytes from `a` is inside the space; addresses do not wrap (R13, R37). -/
abbrev InBounds (a n : Nat) : Prop := ∀ k < n, a + k < memSize

/-- `read_byte` (R34, R37). -/
def readByte (s : State) (a : Nat) : Except Fault Byte :=
  if a < memSize then .ok (s.peek a) else .error .memoryOutOfBounds

/-- `write_byte` (R34, R37). -/
def writeByte (s : State) (a : Nat) (b : Byte) : Except Fault State :=
  if a < memSize then .ok (s.setMem (s.mem.set s.cfg a b)) else .error .memoryOutOfBounds

/-- `MemRead`: all addresses are checked before any byte is read (R13, R38); the bytes in address order. -/
def memRead (s : State) (a n : Nat) : Except Fault (List Byte) :=
  if InBounds a n then .ok ((List.range n).map fun k => s.peek (a + k)) else .error .memoryOutOfBounds

/-- `MemWrite`: all addresses are checked before any byte is written (R13, R38); the bytes in address order. -/
def memWrite (s : State) (a : Nat) (bs : List Byte) : Except Fault State :=
  if InBounds a bs.length then .ok (s.setMem (s.mem.setBytes s.cfg a bs)) else .error .memoryOutOfBounds

/-- `fetch()` (R53): two bytes at any PC, the first is w[15:8]. -/
def fetch (s : State) : Except Fault Word :=
  if s.pc.toNat + 1 > 0xFFF then .error .memoryOutOfBounds
  else .ok (wordOfBytes (s.peek s.pc.toNat) (s.peek (s.pc.toNat + 1)))

/-- `s` with the word `w` at PC, where `fetch` reads it. At a PC that cannot be fetched there is no such place, and
`s` is as it was (log 10). -/
def placeWord (s : State) (w : Word) : State :=
  let b := bytesOfWord w
  if s.pc.toNat + 1 > 0xFFF then s
  else s.setMem (s.mem.setBytes s.cfg s.pc.toNat [b.1, b.2])

/-! ### The framebuffer (R27, R93, R95, R96) -/

/-- The pixel in column `x`, row `y`. -/
def Framebuffer.pixel (fb : Framebuffer) (x : Fin 64) (y : Fin 32) : Bool := fb[x.val][y.val]

/-- The pixel in column `x`, row `y` inverted. -/
def Framebuffer.flip (fb : Framebuffer) (x : Fin 64) (y : Fin 32) : Framebuffer :=
  fb.set x.val (fb[x.val].set y.val (!fb.pixel x y))

/-- `clear()`: every pixel 0 (R94, R96). -/
def Framebuffer.blank : Framebuffer := Vector.replicate dispW (Vector.replicate dispH false)

/-- One sprite pixel at column `x`, row `y`, onto the grid and the collision flag so far: clipped outside the
grid, otherwise XORed if it is set (R95). -/
def drawPixel (x y : Nat) (on : Bool) (d : Framebuffer × Bool) : Framebuffer × Bool :=
  if h : x < dispW ∧ y < dispH then
    if on then (d.1.flip ⟨x, h.1⟩ ⟨y, h.2⟩, d.2 || d.1.pixel ⟨x, h.1⟩ ⟨y, h.2⟩) else d
  else d

/-- One sprite row: bit 7 - c of its byte is the pixel in column `x0 + c` (R93). -/
def drawRow (x0 y : Nat) (row : Byte) (d : Framebuffer × Bool) : Framebuffer × Bool :=
  (List.range 8).foldl (fun d c => drawPixel (x0 + c) y (row.getLsbD (7 - c)) d) d

/-- The sprite rows from framebuffer row `y` down (R93). -/
def drawRows (x0 y : Nat) : List Byte → Framebuffer × Bool → Framebuffer × Bool
  | [], d => d
  | row :: rows, d => drawRows x0 (y + 1) rows (drawRow x0 y row d)

/-- `draw(x, y, sprite_rows)`: the grid after it, and the collision flag (R95, R96). -/
def Framebuffer.draw (fb : Framebuffer) (x0 y0 : Nat) (rows : List Byte) : Framebuffer × Bool :=
  drawRows x0 y0 rows (fb, false)

/-! ### Keys, timers, the random draw -/

/-- `key[k]` (R28). -/
def State.pressed (s : State) (k : Fin 16) : Bool := s.key[k.val]

/-- `min { k | key[k] }`, or none while no key is pressed (R100). -/
def lowestPressed (s : State) : Option Reg := (List.finRange 16).find? fun k => s.pressed k

/-- One timer's part of a tick: a nonzero counter goes down by 1, a counter at 0 stays (R103). -/
def decrement (b : Byte) : Byte := if b.toNat > 0 then b - 1 else b

/-- `RandomByte()` (R16): the next free value, and the state in which it has been drawn (log 2). -/
def randomDraw (s : State) : Byte × State := (Config.randomByte s.draws, { s with draws := s.draws + 1 })

end Sys2Proof.Machine
end

