-- ==== Sys2Proof/Machine/Flags.lean ====
section
/-! DEFINITION. The only flag, VF (10_state.md R21, R22): what each flag value is, and that it is written last. -/

namespace Sys2Proof.Machine

/-- The number of VF. -/
abbrev vf : Reg := 15

/-- A condition as a flag value, 1 or 0. -/
def flagByte (b : Bool) : Byte := if b then 1 else 0

/-- Carry out of 8XY4 (R79). -/
def carryOut (x y : Byte) : Bool := decide (x.toNat + y.toNat > 255)

/-- Not-borrow of 8XY5 and 8XY7: minuend >= subtrahend (R80, R82). -/
def notBorrow (minuend subtrahend : Byte) : Bool := decide (minuend.toNat ≥ subtrahend.toNat)

/-- The bit 8XY6 shifts out, bit 0 (R81). -/
def bitOutRight (src : Byte) : Byte := src &&& 1

/-- The bit 8XYE shifts out, bit 7 (R83). -/
def bitOutLeft (src : Byte) : Byte := src >>> 7

/-- `V[x] <- r`, then `VF <- f`: the flag is the last write (R21). -/
def setResultFlag (s : State) (x : Reg) (r f : Byte) : State := (s.setV x r).setV vf f

/-- `V[x] <- r`, then `VF <- 0` under VF_RESET_QUIRK (R76, R77, R78). -/
def setLogicResult (s : State) (x : Reg) (r : Byte) : State :=
  if s.cfg.vfResetQuirk then setResultFlag s x r 0 else s.setV x r

end Sys2Proof.Machine
end

