-- ==== Sys2Proof/Machine/Operands.lean ====
section
/-! DEFINITION. The operand forms: the quirk-dependent operands and the index-register addressing modes (R92). -/

namespace Sys2Proof.Machine

/-- The source of 8XY6 and 8XYE: V[Y] under UseVY, V[X] under UseVX (R81, R83). -/
def shiftSource (s : State) (x y : Reg) : Byte :=
  match s.cfg.shiftQuirk with
  | .useVY => s.getV y
  | .useVX => s.getV x

/-- The offset of BNNN: V0 under UseV0, V[X] under UseVX (R71). -/
def jumpOffset (s : State) (x : Reg) : Byte :=
  match s.cfg.jumpQuirk with
  | .useV0 => s.getV 0
  | .useVX => s.getV x

/-- I after FX55 and FX65, modulo 65536 (R90, R91). -/
def indexAfter (s : State) (x : Reg) : Word :=
  match s.cfg.loadStoreQuirk with
  | .incXPlus1 => s.i + BitVec.ofNat 16 (x.val + 1)
  | .incX => s.i + BitVec.ofNat 16 x.val
  | .unchanged => s.i

/-- The address of a data access through I: an unbounded integer (R37, R92). -/
def indexAddr (s : State) : Nat := s.i.toNat

/-- The font address of the digit in the low nibble of `b` (R88). -/
def fontAddress (c : Config) (b : Byte) : Word := BitVec.ofNat 16 (c.fontBase.val + 5 * (b &&& 0x0F#8).toNat)

/-- The hundreds, tens and units of `b`, in address order (R89). -/
def bcdDigits (b : Byte) : List Byte :=
  [BitVec.ofNat 8 (b.toNat / 100), BitVec.ofNat 8 (b.toNat / 10 % 10), BitVec.ofNat 8 (b.toNat % 10)]

/-- The bytes FX55 stores: V0 to V[X] (R90). -/
def dumpBytes (s : State) (x : Reg) : List Byte := s.v.toList.take (x.val + 1)

/-- The registers with the bytes `bs` loaded from number `k` up (R91). -/
def loadRegs (v : Vector Byte 16) (k : Nat) : List Byte → Vector Byte 16
  | [] => v
  | b :: bs => loadRegs (v.setIfInBounds k b) (k + 1) bs

/-- `V[k] <- bs[k]` for each byte of `bs` (R91). -/
def State.loadV (s : State) (bs : List Byte) : State := { s with v := loadRegs s.v 0 bs }

/-- A register's value as a key index, or `InvalidKeyIndex` above 15 (R97, R98). -/
def keyIndex (b : Byte) : Except Fault (Fin 16) :=
  if h : b.toNat < numKeys then .ok ⟨b.toNat, h⟩ else .error .invalidKeyIndex

/-- The start column `V[X] mod 64` (R93). -/
def startColumn (s : State) (x : Reg) : Nat := (s.getV x).toNat % dispW

/-- The start row `V[Y] mod 32` (R93). -/
def startRow (s : State) (y : Reg) : Nat := (s.getV y).toNat % dispH

end Sys2Proof.Machine
end

