-- ==== Sys2Proof/Machine/Alu.lean ====
section
/-! DEFINITION. Register and ALU instructions (41_alu.md). No instruction here can raise an error. -/

namespace Sys2Proof.Machine

/-- 6XNN (R73). -/
def execLdImm (x : Reg) (nn : Byte) (s : State) : Answer := .next (s.setV x nn)

/-- 7XNN (R74): no flag. -/
def execAddImm (x : Reg) (nn : Byte) (s : State) : Answer := .next (s.setV x (s.getV x + nn))

/-- 8XY0 (R75). -/
def execLdReg (x y : Reg) (s : State) : Answer := .next (s.setV x (s.getV y))

/-- 8XY1 (R76). -/
def execOrReg (x y : Reg) (s : State) : Answer := .next (setLogicResult s x (s.getV x ||| s.getV y))

/-- 8XY2 (R77). -/
def execAndReg (x y : Reg) (s : State) : Answer := .next (setLogicResult s x (s.getV x &&& s.getV y))

/-- 8XY3 (R78). -/
def execXorReg (x y : Reg) (s : State) : Answer := .next (setLogicResult s x (s.getV x ^^^ s.getV y))

/-- 8XY4 (R79). -/
def execAddReg (x y : Reg) (s : State) : Answer :=
  .next (setResultFlag s x (s.getV x + s.getV y) (flagByte (carryOut (s.getV x) (s.getV y))))

/-- 8XY5 (R80). -/
def execSub (x y : Reg) (s : State) : Answer :=
  .next (setResultFlag s x (s.getV x - s.getV y) (flagByte (notBorrow (s.getV x) (s.getV y))))

/-- 8XY6 (R81). -/
def execShr (x y : Reg) (s : State) : Answer :=
  .next (setResultFlag s x (shiftSource s x y >>> 1) (bitOutRight (shiftSource s x y)))

/-- 8XY7 (R82). -/
def execSubn (x y : Reg) (s : State) : Answer :=
  .next (setResultFlag s x (s.getV y - s.getV x) (flagByte (notBorrow (s.getV y) (s.getV x))))

/-- 8XYE (R83). -/
def execShl (x y : Reg) (s : State) : Answer :=
  .next (setResultFlag s x (shiftSource s x y <<< 1) (bitOutLeft (shiftSource s x y)))

/-- CXNN (R84): the step's random draw masked by NN; the draw is the free value of log 2. -/
def execRnd (x : Reg) (nn : Byte) (s : State) : Answer :=
  let r := randomDraw s
  .next (r.2.setV x (r.1 &&& nn))

end Sys2Proof.Machine
end

