-- ==== Sys2Proof/Machine/Control.lean ====
section
/-! DEFINITION. Control flow (40_control_flow.md). In every meaning PC is already the instruction's address plus 2
(R63, log 9). -/

namespace Sys2Proof.Machine

/-- 00EE (R64). -/
def execRet (s : State) : Answer := attempt (pop s) fun r => .next (r.2.setPc r.1)

/-- 1NNN (R65). -/
def execJp (nnn : Addr) (s : State) : Answer := .next (s.setPc (zext16 nnn))

/-- 2NNN (R66): pushes the advanced PC. -/
def execCall (nnn : Addr) (s : State) : Answer := attempt (push s.pc s) fun t => .next (t.setPc (zext16 nnn))

/-- 3XNN (R67). -/
def execSeImm (x : Reg) (nn : Byte) (s : State) : Answer := .next (skipIf (decide (s.getV x = nn)) s)

/-- 4XNN (R68). -/
def execSneImm (x : Reg) (nn : Byte) (s : State) : Answer := .next (skipIf (decide (s.getV x ≠ nn)) s)

/-- 5XY0 (R69). -/
def execSeReg (x y : Reg) (s : State) : Answer := .next (skipIf (decide (s.getV x = s.getV y)) s)

/-- 9XY0 (R70). -/
def execSneReg (x y : Reg) (s : State) : Answer := .next (skipIf (decide (s.getV x ≠ s.getV y)) s)

/-- BNNN (R71): the sum is not reduced modulo 4096. -/
def execJpV0 (x : Reg) (nnn : Addr) (s : State) : Answer :=
  .next (s.setPc (zext16 nnn + (jumpOffset s x).setWidth 16))

end Sys2Proof.Machine
end

