-- ==== Sys2Proof/Machine/Display.lean ====
section
/-! DEFINITION. Display instructions (43_display.md). -/

namespace Sys2Proof.Machine

/-- 00E0 (R94). -/
def execCls (s : State) : Answer := .next (s.setFb Framebuffer.blank)

/-- DXYN (R95): every row is read and checked first; VF is written last. -/
def execDrw (x y : Reg) (n : Fin 16) (s : State) : Answer :=
  attempt (memRead s (indexAddr s) n.val) fun rows =>
    let d := s.fb.draw (startColumn s x) (startRow s y) rows
    .next ((s.setFb d.1).setV vf (flagByte d.2))

end Sys2Proof.Machine
end

