-- ==== Sys2Proof/Machine/Index.lean ====
section
/-! DEFINITION. Index register and memory instructions (42_index_memory.md). -/

namespace Sys2Proof.Machine

/-- ANNN (R86). -/
def execLdI (nnn : Addr) (s : State) : Answer := .next (s.setI (zext16 nnn))

/-- FX1E (R87): modulo 65536, no flag. -/
def execAddI (x : Reg) (s : State) : Answer := .next (s.setI (s.i + (s.getV x).setWidth 16))

/-- FX29 (R88). -/
def execLdF (x : Reg) (s : State) : Answer := .next (s.setI (fontAddress s.cfg (s.getV x)))

/-- FX33 (R89). -/
def execLdB (x : Reg) (s : State) : Answer := attempt (memWrite s (indexAddr s) (bcdDigits (s.getV x))) .next

/-- FX55 (R90). -/
def execLdMemStore (x : Reg) (s : State) : Answer :=
  attempt (memWrite s (indexAddr s) (dumpBytes s x)) fun t => .next (t.setI (indexAfter s x))

/-- FX65 (R91). -/
def execLdMemLoad (x : Reg) (s : State) : Answer :=
  attempt (memRead s (indexAddr s) (x.val + 1)) fun bs => .next ((s.loadV bs).setI (indexAfter s x))

end Sys2Proof.Machine
end

