-- ==== Sys2Proof/Machine/TimersInput.lean ====
section
/-! DEFINITION. Timer and input instructions (44_timers_input.md). -/

namespace Sys2Proof.Machine

/-- EX9E (R97). -/
def execSkp (x : Reg) (s : State) : Answer :=
  attempt (keyIndex (s.getV x)) fun k => .next (skipIf (s.pressed k) s)

/-- EXA1 (R98). -/
def execSknp (x : Reg) (s : State) : Answer :=
  attempt (keyIndex (s.getV x)) fun k => .next (skipIf (!s.pressed k) s)

/-- FX07 (R99). -/
def execLdVxDt (x : Reg) (s : State) : Answer := .next (s.setV x s.dt)

/-- FX0A (R100): while no key is pressed the advance is undone and nothing else changes. -/
def execLdVxK (x : Reg) (s : State) : Answer :=
  match lowestPressed s with
  | none => .next (s.setPc (s.pc - 2))
  | some k => .next (s.setV x (BitVec.ofNat 8 k.val))

/-- FX15 (R101). -/
def execLdDtVx (x : Reg) (s : State) : Answer := .next (s.setDt (s.getV x))

/-- FX18 (R102). -/
def execLdStVx (x : Reg) (s : State) : Answer := .next (s.setSt (s.getV x))

end Sys2Proof.Machine
end

