-- ==== Sys2Proof/Machine/Step.lean ====
section
/-! DEFINITION. One `step()` (40_control_flow.md R63), and where the host's question about a table word places it. -/

namespace Sys2Proof.Machine

/-- Fetch, decode, advance PC by 2, execute (R63); the checks in R107's order. -/
def step (s : State) : Host.Outcome State Fault Refusal :=
  attempt (fetch s) fun w =>
    match decode w with
    | .ok i => exec i (advancePc s)
    | .error e => raise (decodeFault e)

/-- `s` with the table's word (bit 0 the least significant of its one 16-bit word) stored at PC, most significant
byte first, so that `step` fetches it (log 10). -/
def State.withFetchWord (s : State) (nbits w : Nat) : State := placeWord s (tableWord nbits w)

end Sys2Proof.Machine
end

