-- ==== Sys2Proof/Machine/HostInterface.lean ====
section
/-! DEFINITION. The host interface (60_exceptions.md R113 to R115): every operation, each atomic, and a run as a
finite sequence of them (R110). Any operation may follow any other (log 11). -/

namespace Sys2Proof.Machine

/-- The operations of R113, with their arguments. -/
inductive HostOp where
  | init
  | reset
  | load (rom : List Byte)
  | step
  | tick
  | framebuffer
  | setKey (k : Nat) (p : Bool)
  | soundTimer
  | delayTimer
  deriving DecidableEq, Repr

/-- What an operation returns to the host (R105, R113). -/
inductive Reply where
  /-- `Ok`, or no result -/
  | ok
  /-- `Err(kind)` -/
  | err (k : Fault)
  /-- never returned by this model: no instruction is without a meaning -/
  | refused (r : Refusal)
  /-- the framebuffer view (R96) -/
  | grid (fb : Framebuffer)
  /-- a timer value (R104) -/
  | byte (b : Byte)
  deriving DecidableEq, Repr

/-- `init()` and `reset()`: the whole state to the reset state (R121, R32). The parameters stay (R19), and the next
random draw is still a fresh one (log 2). -/
def hostReset (s : State) : State := State.resetWith s.cfg s.draws

/-- `load(rom)` (R49). -/
def hostLoad (rom : List Byte) (s : State) : Answer :=
  if progBase + rom.length > memSize then raise .romTooLarge
  else .next (s.setMem (s.mem.setBytes s.cfg progBase rom))

/-- `tick()` (R103). -/
def hostTick (s : State) : State := (s.setDt (decrement s.dt)).setSt (decrement s.st)

/-- `set_key(k, p)` (R114). -/
def hostSetKey (k : Nat) (p : Bool) (s : State) : Answer :=
  if h : k > 15 then raise .invalidKeyIndex else .next (s.setKeyAt ⟨k, by omega⟩ p)

/-- What the host is told of an answer. -/
def replyOf : Answer → Reply
  | .next _ => .ok
  | .fault k => .err k
  | .refused r => .refused r

/-- The state after a call and its reply; an error leaves the state as it was (R106). -/
def settle (s : State) (a : Answer) : State × Reply := (afterCall s a, replyOf a)

/-- One host operation (R113). -/
def perform (op : HostOp) (s : State) : State × Reply :=
  match op with
  | .init => (hostReset s, .ok)
  | .reset => (hostReset s, .ok)
  | .load rom => settle s (hostLoad rom s)
  | .step => settle s (step s)
  | .tick => (hostTick s, .ok)
  | .framebuffer => (s, .grid s.fb)
  | .setKey k p => settle s (hostSetKey k p s)
  | .soundTimer => (s, .byte s.st)
  | .delayTimer => (s, .byte s.dt)

/-- A run (R110): the operations in order, the last state and the replies in order. -/
def performAll : List HostOp → State → State × List Reply
  | [], s => (s, [])
  | op :: ops, s =>
    let r := perform op s
    let t := performAll ops r.1
    (t.1, r.2 :: t.2)

end Sys2Proof.Machine
end

