-- ==== Sys2Proof/Safety.lean ====
section
/-! DEFINITION. What holds in every state a run can reach, and what counts as a run without a fault. -/

namespace Sys2Proof.Machine

/-- The invariant of the machine: memory is in canonical form; PC is at most 0x10FE, the largest sum of BNNN
(R24, R71); every valid call-stack entry is a return address, at most 0x1000 (R25, R66). -/
structure State.Inv (s : State) : Prop where
  memWf : s.mem.wf s.cfg
  pcLe : s.pc.toNat ≤ 0x10FE
  stackLe : ∀ k : Fin 16, k.val < s.sp.val → s.stack[k.val].toNat ≤ 0x1000

/-- A state some run of host operations from `init()` of an instance with parameters `c` ends in (R110, R115). -/
def Reachable (c : Config) (s : State) : Prop :=
  ∃ (n : Nat) (ops : List HostOp), s = (performAll ops (State.resetWith c n)).1

/-- R110: a run has faulted when some `step()` of it returned an error. -/
def Faulted : List HostOp → State → Prop
  | [], _ => False
  | op :: ops, s => (op = .step ∧ ∃ k, (perform op s).2 = .err k) ∨ Faulted ops (perform op s).1

end Sys2Proof.Machine
end

