-- ==== Sys2Proof/Certificates/Slice0/Obligations.lean ====
section
/-! DEFINITION. The statements, from the numbered rules of spec/. In every statement about `exec`, PC is already the
instruction's address plus 2 (R63, log 9). A frame is written as an equation: `t = the state s with some fields of t`
says that every other field (registers, I, PC, call stack, timers, framebuffer, keys, all of memory, the draw count,
the parameters) is as it was. -/

namespace Sys2Proof.Statements

open Sys2Proof.Machine

/-- The four bits that name a register. -/
def bits (x : Reg) : BitVec 4 := BitVec.ofFin (w := 4) x

/-- `i` raises `k` in every state of `c`: executing it is that error, and a `step()` that fetches it changes nothing
at all, PC included (R14, R106). -/
def RaisesWhen (i : Instr) (k : Fault) (c : State → Prop) : Prop :=
  (∀ s, c s → exec i s = .fault k) ∧
  ∀ s w, fetch s = .ok w → decode w = .ok i → c s → perform .step s = (s, .err k)

/-- Executing `i` in `s` writes general registers alone, and leaves the values `val` in them. -/
def WritesRegs (i : Instr) (s : State) (val : Reg → Nat) : Prop :=
  ∃ t, exec i s = .next t ∧ (∀ r, (t.getV r).toNat = val r) ∧ t = { s with v := t.v }

/-- Executing `i` skips the next word in the states of `c` and goes on to it in all others; nothing but PC changes.
After a skip from the last word of memory (the skip at 0xFFE, PC advanced to 0x1000) the next fetch raises. -/
def SkipsWhen (i : Instr) (c : State → Bool) : Prop :=
  ∀ s, exec i s = .next { s with pc := if c s then s.pc + 2 else s.pc } ∧
    (s.pc = 0x1000 → c s = true → step { s with pc := s.pc + 2 } = .fault .memoryOutOfBounds)

/-- Whether the `n`-row sprite at I, drawn from column `x0` and row `y0`, has a set pixel at column `px`, row `py`
(R93): row r of the sprite is the byte at I + r and lands on row y0 + r; its bit 7 - c is column x0 + c. -/
def spriteAt (s : State) (x0 y0 n : Nat) (px : Fin 64) (py : Fin 32) : Bool :=
  decide (x0 ≤ px.val ∧ px.val < x0 + 8 ∧ y0 ≤ py.val ∧ py.val < y0 + n) &&
    (s.peek (indexAddr s + (py.val - y0))).getLsbD (7 - (px.val - x0))

/-- I after FX55 and FX65 with last register `x` (R90, R91), modulo 65536. -/
def indexUpdated (s : State) (x : Reg) : Nat :=
  match s.cfg.loadStoreQuirk with
  | .incXPlus1 => (s.i.toNat + x.val + 1) % 65536
  | .incX => (s.i.toNat + x.val) % 65536
  | .unchanged => s.i.toNat

/-- The words of 30_encoding.md R56's table. -/
def IllegalWord (w : Nat) : Prop :=
  (w < 0x1000 ∧ w ≠ 0x00E0 ∧ w ≠ 0x00EE) ∨
  (w / 4096 = 5 ∧ w % 16 ≠ 0) ∨
  (w / 4096 = 8 ∧ w % 16 ∈ [8, 9, 0xA, 0xB, 0xC, 0xD, 0xF]) ∨
  (w / 4096 = 9 ∧ w % 16 ≠ 0) ∨
  (w / 4096 = 0xE ∧ w % 256 ∉ [0x9E, 0xA1]) ∨
  (w / 4096 = 0xF ∧ w % 256 ∉ [0x07, 0x0A, 0x15, 0x18, 0x1E, 0x29, 0x33, 0x55, 0x65])

/-- The condition of each instruction's one check (R105), on the state before the step. -/
def InstrError (i : Instr) (s : State) (k : Fault) : Prop :=
  (i = .ret ∧ k = .stackUnderflow ∧ s.sp.val = 0) ∨
  (∃ nnn, i = .call nnn ∧ k = .stackOverflow ∧ s.sp.val = 16) ∨
  (∃ x, (i = .skp x ∨ i = .sknp x) ∧ k = .invalidKeyIndex ∧ (s.getV x).toNat > 15) ∨
  (∃ x, i = .ldB x ∧ k = .memoryOutOfBounds ∧ s.i.toNat + 2 ≥ 4096) ∨
  (∃ x, (i = .ldMemStore x ∨ i = .ldMemLoad x) ∧ k = .memoryOutOfBounds ∧ s.i.toNat + x.val ≥ 4096) ∨
  (∃ x y n, i = .drw x y n ∧ k = .memoryOutOfBounds ∧ 0 < n.val ∧ s.i.toNat + n.val - 1 ≥ 4096)

/-- The general registers an instruction writes (R20, R22): its destination, the flag VF, the loaded registers. Every
other instruction writes none. -/
def MayWriteReg (c : Config) (i : Instr) (r : Reg) : Prop :=
  match i with
  | .ldImm x _ | .addImm x _ | .ldReg x _ | .rnd x _ | .ldVxDt x | .ldVxK x => r = x
  | .orReg x _ | .andReg x _ | .xorReg x _ => r = x ∨ (c.vfResetQuirk = true ∧ r = 15)
  | .addReg x _ | .sub x _ | .shr x _ | .subn x _ | .shl x _ => r = x ∨ r = 15
  | .drw _ _ _ => r = 15
  | .ldMemLoad x => r ≤ x
  | .cls | .ret | .jp _ | .call _ | .seImm _ _ | .sneImm _ _ | .seReg _ _ | .sneReg _ _ | .ldI _ | .jpV0 _ _
  | .skp _ | .sknp _ | .ldDtVx _ | .ldStVx _ | .addI _ | .ldF _ | .ldB _ | .ldMemStore _ => False

/-- The instructions after which PC may be other than the next word's address (R63, R72, R100): return, jumps, call,
skips, and the key wait. -/
def MaySetPc (i : Instr) : Prop :=
  match i with
  | .ret | .jp _ | .call _ | .jpV0 _ _ | .seImm _ _ | .sneImm _ _ | .seReg _ _ | .sneReg _ _ | .skp _ | .sknp _
  | .ldVxK _ => True
  | .cls | .ldImm _ _ | .addImm _ _ | .ldReg _ _ | .orReg _ _ | .andReg _ _ | .xorReg _ _ | .addReg _ _ | .sub _ _
  | .shr _ _ | .subn _ _ | .shl _ _ | .ldI _ | .rnd _ _ | .drw _ _ _ | .ldVxDt _ | .ldDtVx _ | .ldStVx _ | .addI _
  | .ldF _ | .ldB _ | .ldMemStore _ | .ldMemLoad _ => False

/-- Every way a `step()` can fail (R105, R107). -/
def StepError (s : State) (k : Fault) : Prop :=
  (k = .memoryOutOfBounds ∧ s.pc.toNat + 1 > 0xFFF) ∨
  ∃ w, fetch s = .ok w ∧
    ((k = .invalidOpcode ∧ ∃ e, decode w = .error e) ∨ ∃ i, decode w = .ok i ∧ InstrError i s k)

/-- The zero/font state of 10_state.md R32, for the parameters the state has. -/
structure IsResetState (t : State) : Prop where
  v : ∀ r, t.getV r = 0
  i : t.i = 0
  pc : t.pc = 0x200
  sp : t.sp = 0
  stack : ∀ k : Fin 16, t.stack[k.val] = 0
  dt : t.dt = 0
  st : t.st = 0
  fb : ∀ x y, t.fb.pixel x y = false
  key : ∀ k, t.pressed k = false
  font : ∀ k : Fin 80, t.peek (t.cfg.fontBase.val + k.val) = t.cfg.fontData[k.val]
  zero : ∀ a, a < t.cfg.fontBase.val ∨ t.cfg.fontBase.val + 80 ≤ a → t.peek a = 0

/-- Push the words one after the other, the head first. -/
def pushAll : List Word → State → Except Fault State
  | [], s => .ok s
  | a :: as, s =>
    match push a s with
    | .ok t => pushAll as t
    | .error e => .error e

/-- Pop `n` words, the first popped at the head. -/
def popAll : Nat → State → Except Fault (List Word × State)
  | 0, s => .ok ([], s)
  | n + 1, s =>
    match pop s with
    | .error e => .error e
    | .ok (a, t) =>
      match popAll n t with
      | .ok (as, u) => .ok (a :: as, u)
      | .error e => .error e

end Sys2Proof.Statements

open Sys2Proof Sys2Proof.Machine Sys2Proof.Statements

/-! ### Control flow -/

/-- R64, with the choice of decision D41 (the popped value is used unchecked). RET with a nonempty stack pops its
most recent valid entry into PC; with an empty stack it raises StackUnderflow. -/
def Obligations.RetPopsReturnAddress : Prop :=
  decode 0x00EE#16 = .ok .ret ∧
  (∀ s : State, 0 < s.sp.val → ∃ t, exec .ret s = .next t ∧ t.sp.val + 1 = s.sp.val ∧
    s.stack[t.sp.val]? = some t.pc ∧ t = { s with sp := t.sp, pc := t.pc }) ∧
  RaisesWhen .ret .stackUnderflow (fun s => s.sp.val = 0)

/-- R65. JP writes the 12-bit target to PC and nothing else; a jump to itself is a step that changes no state; after
a jump to 0xFFF the next fetch raises MemoryOutOfBounds. -/
def Obligations.JumpSetsPc : Prop :=
  ∀ (nnn : Addr),
    decode (0x1#4 ++ nnn) = .ok (.jp nnn) ∧
    (∀ s, ∃ t, exec (.jp nnn) s = .next t ∧ t.pc.toNat = nnn.toNat ∧ t = { s with pc := t.pc } ∧
      (nnn = 0xFFF#12 → step t = .fault .memoryOutOfBounds)) ∧
    ∀ s, fetch s = .ok (0x1#4 ++ nnn) → s.pc.toNat = nnn.toNat → step s = .next s

/-- R66, with the choice of decision D39. CALL with fewer than 16 entries pushes the advanced PC and jumps; the other entries stay; with 16 entries it
raises StackOverflow. A CALL of its own address succeeds 16 times from an empty stack and then raises. -/
def Obligations.CallPushesReturnAddress : Prop :=
  ∀ (nnn : Addr),
    decode (0x2#4 ++ nnn) = .ok (.call nnn) ∧
    (∀ s : State, s.sp.val < 16 → ∃ t, exec (.call nnn) s = .next t ∧ t.sp.val = s.sp.val + 1 ∧
      (∀ k : Fin 16, t.stack[k.val] = if k.val = s.sp.val then s.pc else s.stack[k.val]) ∧
      t.pc.toNat = nnn.toNat ∧ t = { s with stack := t.stack, sp := t.sp, pc := t.pc }) ∧
    RaisesWhen (.call nnn) .stackOverflow (fun s => s.sp.val = 16) ∧
    ∀ s, fetch s = .ok (0x2#4 ++ nnn) → s.pc.toNat = nnn.toNat → s.sp.val = 0 →
      (performAll (List.replicate 17 .step) s).2 = List.replicate 16 .ok ++ [.err .stackOverflow]

/-- R67. -/
def Obligations.SkipIfEqualByte : Prop :=
  ∀ (x : Reg) (nn : Byte),
    decode (0x3#4 ++ bits x ++ nn) = .ok (.seImm x nn) ∧
    SkipsWhen (.seImm x nn) fun s => s.getV x == nn

/-- R68. -/
def Obligations.SkipIfNotEqualByte : Prop :=
  ∀ (x : Reg) (nn : Byte),
    decode (0x4#4 ++ bits x ++ nn) = .ok (.sneImm x nn) ∧
    SkipsWhen (.sneImm x nn) fun s => s.getV x != nn

/-- R69, with the choice of decision D3: only the low nibble 0 decodes. -/
def Obligations.SkipIfEqualRegister : Prop :=
  ∀ (x y : Reg),
    decode (0x5#4 ++ bits x ++ bits y ++ 0x0#4) = .ok (.seReg x y) ∧
    (∀ n : BitVec 4, n ≠ 0 → ∀ s, fetch s = .ok (0x5#4 ++ bits x ++ bits y ++ n) → step s = .fault .invalidOpcode) ∧
    SkipsWhen (.seReg x y) fun s => s.getV x == s.getV y

/-- R70, with the choice of decision D3: only the low nibble 0 decodes. -/
def Obligations.SkipIfNotEqualRegister : Prop :=
  ∀ (x y : Reg),
    decode (0x9#4 ++ bits x ++ bits y ++ 0x0#4) = .ok (.sneReg x y) ∧
    (∀ n : BitVec 4, n ≠ 0 → ∀ s, fetch s = .ok (0x9#4 ++ bits x ++ bits y ++ n) → step s = .fault .invalidOpcode) ∧
    SkipsWhen (.sneReg x y) fun s => s.getV x != s.getV y

/-- R71, for both values of JUMP_QUIRK. The sum is not reduced modulo 4096, and a sum of 0xFFF or more makes the next
step raise MemoryOutOfBounds. -/
def Obligations.IndexedJumpAddsOffset : Prop :=
  ∀ (nnn : Addr) (x : Reg), x = fieldX (0xB#4 ++ nnn) →
    decode (0xB#4 ++ nnn) = .ok (.jpV0 x nnn) ∧
    ∀ s : State, ∃ t, exec (.jpV0 x nnn) s = .next t ∧
      t.pc.toNat = nnn.toNat + (match s.cfg.jumpQuirk with
        | .useV0 => (s.getV 0).toNat
        | .useVX => (s.getV x).toNat) ∧
      t = { s with pc := t.pc } ∧
      (0xFFF ≤ t.pc.toNat → step t = .fault .memoryOutOfBounds)

/-! ### ALU -/

/-- R73. -/
def Obligations.LoadByteImmediate : Prop :=
  ∀ (x : Reg) (nn : Byte),
    decode (0x6#4 ++ bits x ++ nn) = .ok (.ldImm x nn) ∧
    ∀ s, WritesRegs (.ldImm x nn) s fun r => if r = x then nn.toNat else (s.getV r).toNat

/-- R74, with the choice of decision D14 (no flag): modulo 256, VF changes only as the destination. -/
def Obligations.AddByteWritesNoFlag : Prop :=
  ∀ (x : Reg) (nn : Byte),
    decode (0x7#4 ++ bits x ++ nn) = .ok (.addImm x nn) ∧
    ∀ s, WritesRegs (.addImm x nn) s fun r =>
      if r = x then ((s.getV x).toNat + nn.toNat) % 256 else (s.getV r).toNat

/-- R75. -/
def Obligations.CopyRegister : Prop :=
  ∀ (x y : Reg),
    decode (0x8#4 ++ bits x ++ bits y ++ 0x0#4) = .ok (.ldReg x y) ∧
    ∀ s, WritesRegs (.ldReg x y) s fun r => if r = x then (s.getV y).toNat else (s.getV r).toNat

/-- R76, for both values of VF_RESET_QUIRK. -/
def Obligations.OrRegisters : Prop :=
  ∀ (x y : Reg),
    decode (0x8#4 ++ bits x ++ bits y ++ 0x1#4) = .ok (.orReg x y) ∧
    ∀ s, WritesRegs (.orReg x y) s fun r =>
      if s.cfg.vfResetQuirk = true ∧ r = 15 then 0
      else if r = x then (s.getV x).toNat ||| (s.getV y).toNat else (s.getV r).toNat

/-- R77, for both values of VF_RESET_QUIRK. -/
def Obligations.AndRegisters : Prop :=
  ∀ (x y : Reg),
    decode (0x8#4 ++ bits x ++ bits y ++ 0x2#4) = .ok (.andReg x y) ∧
    ∀ s, WritesRegs (.andReg x y) s fun r =>
      if s.cfg.vfResetQuirk = true ∧ r = 15 then 0
      else if r = x then (s.getV x).toNat &&& (s.getV y).toNat else (s.getV r).toNat

/-- R78, for both values of VF_RESET_QUIRK. -/
def Obligations.XorRegisters : Prop :=
  ∀ (x y : Reg),
    decode (0x8#4 ++ bits x ++ bits y ++ 0x3#4) = .ok (.xorReg x y) ∧
    ∀ s, WritesRegs (.xorReg x y) s fun r =>
      if s.cfg.vfResetQuirk = true ∧ r = 15 then 0
      else if r = x then (s.getV x).toNat ^^^ (s.getV y).toNat else (s.getV r).toNat

/-- R79: the flag is written last. -/
def Obligations.AddSetsCarry : Prop :=
  ∀ (x y : Reg),
    decode (0x8#4 ++ bits x ++ bits y ++ 0x4#4) = .ok (.addReg x y) ∧
    ∀ s, WritesRegs (.addReg x y) s fun r =>
      if r = 15 then (if (s.getV x).toNat + (s.getV y).toNat > 255 then 1 else 0)
      else if r = x then ((s.getV x).toNat + (s.getV y).toNat) % 256 else (s.getV r).toNat

/-- R80: the flag is written last. -/
def Obligations.SubSetsNotBorrow : Prop :=
  ∀ (x y : Reg),
    decode (0x8#4 ++ bits x ++ bits y ++ 0x5#4) = .ok (.sub x y) ∧
    ∀ s, WritesRegs (.sub x y) s fun r =>
      if r = 15 then (if (s.getV x).toNat ≥ (s.getV y).toNat then 1 else 0)
      else if r = x then ((s.getV x).toNat + 256 - (s.getV y).toNat) % 256 else (s.getV r).toNat

/-- R81, for both values of SHIFT_QUIRK: the flag is written last. -/
def Obligations.ShiftRightSetsBitOut : Prop :=
  ∀ (x y : Reg),
    decode (0x8#4 ++ bits x ++ bits y ++ 0x6#4) = .ok (.shr x y) ∧
    ∀ s src, src = (if s.cfg.shiftQuirk = .useVY then s.getV y else s.getV x).toNat →
      WritesRegs (.shr x y) s fun r =>
        if r = 15 then src % 2 else if r = x then src / 2 else (s.getV r).toNat

/-- R82: the flag is written last. -/
def Obligations.SubnSetsNotBorrow : Prop :=
  ∀ (x y : Reg),
    decode (0x8#4 ++ bits x ++ bits y ++ 0x7#4) = .ok (.subn x y) ∧
    ∀ s, WritesRegs (.subn x y) s fun r =>
      if r = 15 then (if (s.getV y).toNat ≥ (s.getV x).toNat then 1 else 0)
      else if r = x then ((s.getV y).toNat + 256 - (s.getV x).toNat) % 256 else (s.getV r).toNat

/-- R83, for both values of SHIFT_QUIRK: the flag is written last. -/
def Obligations.ShiftLeftSetsBitOut : Prop :=
  ∀ (x y : Reg),
    decode (0x8#4 ++ bits x ++ bits y ++ 0xE#4) = .ok (.shl x y) ∧
    ∀ s src, src = (if s.cfg.shiftQuirk = .useVY then s.getV y else s.getV x).toNat →
      WritesRegs (.shl x y) s fun r =>
        if r = 15 then src / 128 else if r = x then src * 2 % 256 else (s.getV r).toNat

/-- R84, decision D10: V[X] is the step's random draw masked by NN. The draw is the free value of log 2
(`Config.randomByte`, of which nothing is known); taking it counts one draw. Every bit outside NN is 0. -/
def Obligations.RandomIsMasked : Prop :=
  ∀ (x : Reg) (nn : Byte),
    decode (0xC#4 ++ bits x ++ nn) = .ok (.rnd x nn) ∧
    ∀ s, ∃ t, exec (.rnd x nn) s = .next t ∧
      (∀ r, t.getV r = if r = x then Config.randomByte s.draws &&& nn else s.getV r) ∧
      (∀ b, nn.getLsbD b = false → (t.getV x).getLsbD b = false) ∧
      t.draws = s.draws + 1 ∧ t = { s with v := t.v, draws := t.draws }

/-! ### Index register and memory -/

/-- R86: bits 15:12 of I become 0. -/
def Obligations.LoadIndexImmediate : Prop :=
  ∀ (nnn : Addr),
    decode (0xA#4 ++ nnn) = .ok (.ldI nnn) ∧
    ∀ s, ∃ t, exec (.ldI nnn) s = .next t ∧ t.i.toNat = nnn.toNat ∧ t = { s with i := t.i }

/-- R87, with the choices of decisions D14 (VF is not written) and D15 (I keeps 16 bits). -/
def Obligations.AddToIndexWraps : Prop :=
  ∀ (x : Reg),
    decode (0xF#4 ++ bits x ++ 0x1E#8) = .ok (.addI x) ∧
    ∀ s, ∃ t, exec (.addI x) s = .next t ∧ t.i.toNat = (s.i.toNat + (s.getV x).toNat) % 65536 ∧
      t = { s with i := t.i }

/-- R88, with the choice of decision D22 (the low nibble is the digit), for every FONT_BASE. -/
def Obligations.IndexPointsAtFontDigit : Prop :=
  ∀ (x : Reg),
    decode (0xF#4 ++ bits x ++ 0x29#8) = .ok (.ldF x) ∧
    ∀ s : State, ∃ t, exec (.ldF x) s = .next t ∧
      t.i.toNat = s.cfg.fontBase.val + 5 * ((s.getV x).toNat % 16) ∧ t.i.toNat < 0x200 ∧ t = { s with i := t.i }

/-- R89. The three bytes stored to are I, I + 1 and I + 2; every other byte of memory reads as before. -/
def Obligations.BcdStoresThreeDigits : Prop :=
  ∀ (x : Reg),
    decode (0xF#4 ++ bits x ++ 0x33#8) = .ok (.ldB x) ∧
    (∀ s : State, indexAddr s + 2 < 4096 → ∃ t, exec (.ldB x) s = .next t ∧
      (t.peek (indexAddr s)).toNat = (s.getV x).toNat / 100 ∧
      (t.peek (indexAddr s + 1)).toNat = (s.getV x).toNat / 10 % 10 ∧
      (t.peek (indexAddr s + 2)).toNat = (s.getV x).toNat % 10 ∧
      (∀ a, a < indexAddr s ∨ indexAddr s + 2 < a → t.peek a = s.peek a) ∧
      t = { s with mem := t.mem }) ∧
    RaisesWhen (.ldB x) .memoryOutOfBounds (fun s => s.i.toNat + 2 ≥ 4096)

/-- R90, for every LOADSTORE_QUIRK. The bytes stored to are I to I + X; every other byte reads as before. -/
def Obligations.DumpStoresRegisters : Prop :=
  ∀ (x : Reg),
    decode (0xF#4 ++ bits x ++ 0x55#8) = .ok (.ldMemStore x) ∧
    (∀ s : State, indexAddr s + x.val < 4096 → ∃ t, exec (.ldMemStore x) s = .next t ∧
      (∀ k : Reg, k ≤ x → t.peek (indexAddr s + k.val) = s.getV k) ∧
      (∀ a, a < indexAddr s ∨ indexAddr s + x.val < a → t.peek a = s.peek a) ∧
      t.i.toNat = indexUpdated s x ∧ t = { s with mem := t.mem, i := t.i }) ∧
    RaisesWhen (.ldMemStore x) .memoryOutOfBounds (fun s => s.i.toNat + x.val ≥ 4096)

/-- R91, for every LOADSTORE_QUIRK. -/
def Obligations.LoadFillsRegisters : Prop :=
  ∀ (x : Reg),
    decode (0xF#4 ++ bits x ++ 0x65#8) = .ok (.ldMemLoad x) ∧
    (∀ s : State, indexAddr s + x.val < 4096 → ∃ t, exec (.ldMemLoad x) s = .next t ∧
      (∀ k : Reg, t.getV k = if k ≤ x then s.peek (indexAddr s + k.val) else s.getV k) ∧
      t.i.toNat = indexUpdated s x ∧ t = { s with v := t.v, i := t.i }) ∧
    RaisesWhen (.ldMemLoad x) .memoryOutOfBounds (fun s => s.i.toNat + x.val ≥ 4096)

/-! ### Display -/

/-- R94. -/
def Obligations.ClearBlanksDisplay : Prop :=
  decode 0x00E0#16 = .ok .cls ∧
  ∀ s, ∃ t, exec .cls s = .next t ∧ (∀ px py, t.fb.pixel px py = false) ∧ t = { s with fb := t.fb }

/-- R93 and R95, with the choices of decisions D11 (the start wraps), D12 (DXY0 draws nothing), D13 (every row is
checked) and D42 (clipped pixels never count). Every pixel of the grid is XORed with the sprite's pixel there, and
VF, written last, says whether a set pixel met a set sprite pixel. -/
def Obligations.DrawXorsSprite : Prop :=
  ∀ (x y : Reg) (n : Fin 16),
    decode (0xD#4 ++ bits x ++ bits y ++ bits n) = .ok (.drw x y n) ∧
    (∀ s : State, n.val = 0 ∨ indexAddr s + n.val - 1 < 4096 →
      ∃ t, exec (.drw x y n) s = .next t ∧
        (∀ px py, t.fb.pixel px py =
          (s.fb.pixel px py ^^ spriteAt s ((s.getV x).toNat % 64) ((s.getV y).toNat % 32) n.val px py)) ∧
        (t.getV 15 = 0 ∨ t.getV 15 = 1) ∧
        (t.getV 15 = 1 ↔ ∃ px py, s.fb.pixel px py = true ∧ t.fb.pixel px py = false) ∧
        (∀ r, r ≠ 15 → t.getV r = s.getV r) ∧ t = { s with v := t.v, fb := t.fb }) ∧
    RaisesWhen (.drw x y n) .memoryOutOfBounds (fun s => 0 < n.val ∧ s.i.toNat + n.val - 1 ≥ 4096)

/-! ### Timers and input -/

/-- R97, with the choice of decision D21 (an index above 15 raises). -/
def Obligations.SkipIfKeyPressed : Prop :=
  ∀ (x : Reg),
    decode (0xE#4 ++ bits x ++ 0x9E#8) = .ok (.skp x) ∧
    (∀ (s : State) (k : Fin 16), (s.getV x).toNat = k.val →
      exec (.skp x) s = .next { s with pc := if s.pressed k then s.pc + 2 else s.pc }) ∧
    RaisesWhen (.skp x) .invalidKeyIndex (fun s => (s.getV x).toNat > 15)

/-- R98, with the choice of decision D21 (an index above 15 raises). -/
def Obligations.SkipIfKeyNotPressed : Prop :=
  ∀ (x : Reg),
    decode (0xE#4 ++ bits x ++ 0xA1#8) = .ok (.sknp x) ∧
    (∀ (s : State) (k : Fin 16), (s.getV x).toNat = k.val →
      exec (.sknp x) s = .next { s with pc := if s.pressed k then s.pc else s.pc + 2 }) ∧
    RaisesWhen (.sknp x) .invalidKeyIndex (fun s => (s.getV x).toNat > 15)

/-- R99: reading DT does not change it. -/
def Obligations.ReadDelayTimer : Prop :=
  ∀ (x : Reg),
    decode (0xF#4 ++ bits x ++ 0x07#8) = .ok (.ldVxDt x) ∧
    ∀ s, WritesRegs (.ldVxDt x) s fun r => if r = x then s.dt.toNat else (s.getV r).toNat

/-- R100, with the choices of decisions D20 (level-triggered, the lowest pressed key) and D45. With key `k` the lowest
pressed, V[X] is `k`; with none, PC goes back by 2 and nothing else changes. -/
def Obligations.KeyWaitStoresLowestKey : Prop :=
  ∀ (x : Reg),
    decode (0xF#4 ++ bits x ++ 0x0A#8) = .ok (.ldVxK x) ∧
    (∀ (s : State) (k : Fin 16), s.pressed k = true → (∀ j, j < k → s.pressed j = false) →
      WritesRegs (.ldVxK x) s fun r => if r = x then k.val else (s.getV r).toNat) ∧
    ∀ s : State, (∀ k, s.pressed k = false) → exec (.ldVxK x) s = .next { s with pc := s.pc - 2 }

/-- R101. -/
def Obligations.SetDelayTimer : Prop :=
  ∀ (x : Reg),
    decode (0xF#4 ++ bits x ++ 0x15#8) = .ok (.ldDtVx x) ∧
    ∀ s, exec (.ldDtVx x) s = .next { s with dt := s.getV x }

/-- R102, with the choice of decision D44 (any value is stored, 1 included). -/
def Obligations.SetSoundTimer : Prop :=
  ∀ (x : Reg),
    decode (0xF#4 ++ bits x ++ 0x18#8) = .ok (.ldStVx x) ∧
    ∀ s, exec (.ldStVx x) s = .next { s with st := s.getV x }

/-! ### The step -/

/-- R63: when the two bytes at PC, both inside memory, decode to `i`, the step is the execution of `i` with PC advanced
by 2. -/
def Obligations.StepRunsDecodedInstruction : Prop :=
  ∀ (s : State) (i : Instr), s.pc.toNat + 1 ≤ 0xFFF →
    decodeBytes (s.peek s.pc.toNat) (s.peek (s.pc.toNat + 1)) = .ok i → step s = exec i { s with pc := s.pc + 2 }

/-- R53: the fetched word is big-endian at any PC, odd or even; a PC of 0xFFF or more raises and changes nothing. -/
def Obligations.FetchIsBigEndian : Prop :=
  ∀ s : State,
    (s.pc.toNat + 1 ≤ 0xFFF → ∃ w, fetch s = .ok w ∧
      w.toNat = 256 * (s.peek s.pc.toNat).toNat + (s.peek (s.pc.toNat + 1)).toNat) ∧
    (s.pc.toNat + 1 > 0xFFF → fetch s = .error .memoryOutOfBounds ∧ perform .step s = (s, .err .memoryOutOfBounds))

/-- R56, R57, with the choices of decisions D2 and D3 (SYS is illegal, low nibbles are strict): exactly the words of
R56's table do not decode, and a step that fetches one raises InvalidOpcode and changes nothing. -/
def Obligations.IllegalWordsRaise : Prop :=
  (∀ w : Word, (∃ e, decode w = .error e) ↔ IllegalWord w.toNat) ∧
  ∀ (s : State) (w : Word), fetch s = .ok w → IllegalWord w.toNat → perform .step s = (s, .err .invalidOpcode)

/-- R59: every word is of at most one of the table's 34 rows, it decodes exactly when it is of one, and then the
instruction is that row's. -/
def Obligations.OpcodeRowsDecideDecode : Prop :=
  opcodeRows.length = 34 ∧
  (∀ (w : Word) (r q : OpcodeRow), r ∈ opcodeRows → q ∈ opcodeRows → r.Matches w → q.Matches w → r = q) ∧
  (∀ w : Word, (∃ i, decode w = .ok i) ↔ ∃ r ∈ opcodeRows, r.Matches w) ∧
  ∀ (w : Word) (i : Instr), decode w = .ok i → opcodeRow i ∈ opcodeRows ∧ (opcodeRow i).Matches w

/-- Decoding an encoded well-formed instruction gives it back, for every operand. -/
def Obligations.DecodeOfEncode : Prop :=
  ∀ i : Instr, wellFormed i = true → decode (encode i) = .ok i

/-- A decoded word is well-formed and encodes back to itself: decoding drops no bit, and no two words are one
instruction. -/
def Obligations.EncodeOfDecode : Prop :=
  ∀ (w : Word) (i : Instr), decode w = .ok i → wellFormed i = true ∧ encode i = w

/-- Words of the spec's own examples (95_test_vectors.md), one per family. -/
def Obligations.ExampleWordsDecode : Prop :=
  decode 0x00EE#16 = .ok .ret ∧ decode 0x1208#16 = .ok (.jp 0x208) ∧ decode 0x2210#16 = .ok (.call 0x210) ∧
  decode 0x3305#16 = .ok (.seImm 3 5) ∧ decode 0x4306#16 = .ok (.sneImm 3 6) ∧ decode 0x5120#16 = .ok (.seReg 1 2) ∧
  decode 0x600A#16 = .ok (.ldImm 0 0x0A) ∧ decode 0x7FFF#16 = .ok (.addImm 15 0xFF) ∧
  decode 0x8F14#16 = .ok (.addReg 15 1) ∧ decode 0x9120#16 = .ok (.sneReg 1 2) ∧ decode 0xA300#16 = .ok (.ldI 0x300) ∧
  decode 0xB220#16 = .ok (.jpV0 2 0x220) ∧ decode 0xC30F#16 = .ok (.rnd 3 0x0F) ∧
  decode 0xD125#16 = .ok (.drw 1 2 5) ∧ decode 0xE59E#16 = .ok (.skp 5) ∧ decode 0xFA33#16 = .ok (.ldB 10)

/-! ### Errors and whole-machine rules -/

/-- R106: an erroring operation changes no state at all. -/
def Obligations.ErrorsChangeNothing : Prop :=
  ∀ (op : HostOp) (s t : State) (k : Fault), perform op s = (t, .err k) → t = s

/-- R109: no fault bit; the same operation raises the same error again, and any number of steps after a failed one
fail the same way. -/
def Obligations.ErrorsRepeat : Prop :=
  ∀ (s : State) (k : Fault), step s = .fault k → ∀ n,
    performAll (List.replicate n .step) s = (s, List.replicate n (.err k))

/-- R105 and R107: a step fails exactly in the listed conditions, with the first that applies in the order fetch,
decode, the instruction's own check; in every other state it succeeds, and no step is ever refused. It rests on
choices that the model takes over from the spec (log 12): D2 and D3 (which words are illegal), D13 (every sprite row is
checked), D16 and D17 (addresses and PC do not wrap), D21 (a key index above 15 raises), D30 (the order of the checks). -/
def Obligations.StepFailsExactlyAsListed : Prop :=
  ∀ s : State, (∀ k, step s = .fault k ↔ StepError s k) ∧ ((∀ k, ¬ StepError s k) → ∃ t, step s = .next t)

/-- What a successful step of instruction `i` leaves alone (R19, R20, R22, R25, R26, R27, R28, R36): keys and parameters
always; every field of the state, each general register on its own, unless `i` is one of the instructions the rules
name for it; and PC is the next word's address unless `i` is a control transfer or the key wait. That 7XNN and FX1E
leave VF alone is the choice of D14 (log 12). The last clause is about a field of the model's own, the count of draws
(log 2). -/
def Obligations.StepChangesOnlyNamedState : Prop :=
  ∀ (s t : State) (w : Word) (i : Instr), fetch s = .ok w → decode w = .ok i → step s = .next t →
    t.key = s.key ∧ t.cfg = s.cfg ∧
    (∀ r, ¬ MayWriteReg s.cfg i r → t.getV r = s.getV r) ∧
    (¬ MaySetPc i → t.pc = s.pc + 2) ∧
    ((∀ x, i ≠ .ldDtVx x) → t.dt = s.dt) ∧
    ((∀ x, i ≠ .ldStVx x) → t.st = s.st) ∧
    (i ≠ .cls → (∀ x y n, i ≠ .drw x y n) → t.fb = s.fb) ∧
    ((∀ x, i ≠ .ldB x) → (∀ x, i ≠ .ldMemStore x) → t.mem = s.mem ∧ ∀ a, t.peek a = s.peek a) ∧
    (i ≠ .ret → (∀ nnn, i ≠ .call nnn) → t.sp = s.sp ∧ t.stack = s.stack) ∧
    ((∀ nnn, i ≠ .ldI nnn) → (∀ x, i ≠ .addI x) → (∀ x, i ≠ .ldF x) → (∀ x, i ≠ .ldMemStore x) →
      (∀ x, i ≠ .ldMemLoad x) → t.i = s.i) ∧
    ((∀ x nn, i ≠ .rnd x nn) → t.draws = s.draws)

/-- R26: no instruction reads the sound timer. Two states that differ only in ST step alike: the same error, or next
states that differ at most in ST. -/
def Obligations.StepIgnoresSoundTimer : Prop :=
  ∀ (s : State) (b : Byte),
    (∀ k, step s = .fault k → step { s with st := b } = .fault k) ∧
    ∀ t, step s = .next t → ∃ c, step { s with st := b } = .next { t with st := c }

/-- R127, R120, with the choices of decisions D20 and D45: a step at FX0A with no key pressed changes nothing; when the
host has then pressed one key, the next step stores its index and goes on. -/
def Obligations.KeyWaitEndsOnPress : Prop :=
  ∀ (s : State) (w : Word) (x : Reg), fetch s = .ok w → decode w = .ok (.ldVxK x) → (∀ k, s.pressed k = false) →
    step s = .next s ∧
    ∀ k : Fin 16, ∃ t, step (perform (.setKey k.val true) s).1 = .next t ∧ (t.getV x).toNat = k.val ∧ t.pc = s.pc + 2

/-- R46: a register dump over the bytes of the next instruction is what the next fetch reads. -/
def Obligations.StoredBytesAreFetched : Prop :=
  ∀ (s t : State) (x j k : Reg), exec (.ldMemStore x) s = .next t → k.val = j.val + 1 → k ≤ x →
    t.pc.toNat = indexAddr s + j.val → fetch t = .ok (s.getV j ++ s.getV k)

/-- R50's law on the accessors: a byte written inside memory is read back, and every other byte reads as before. -/
def Obligations.WrittenByteIsReadBack : Prop :=
  ∀ (s : State) (a : Nat) (v : Byte), a < 4096 → ∃ t, writeByte s a v = .ok t ∧ readByte t a = .ok v ∧
    (∀ b, b ≠ a → readByte t b = readByte s b) ∧ t = { s with mem := t.mem }

/-- R50 in instruction terms: after FX55, whatever has become of the registers, an FX65 from the same address loads
the dumped values. -/
def Obligations.DumpThenLoadRestores : Prop :=
  ∀ (s t : State) (x : Reg), exec (.ldMemStore x) s = .next t →
    ∀ u : State, u.mem = t.mem → u.cfg = t.cfg → u.i = s.i →
      ∃ z, exec (.ldMemLoad x) u = .next z ∧ ∀ k : Reg, k ≤ x → z.getV k = s.getV k

/-- R25: the call stack is last-in first-out. Pushing words that fit and popping as many gives them back in reverse,
leaves the depth and every entry below it as they were, and changes nothing else; a push at depth 16 and a pop at
depth 0 raise. -/
def Obligations.CallStackIsLifo : Prop :=
  (∀ (as : List Word) (s : State), s.sp.val + as.length ≤ 16 → ∃ t u,
    pushAll as s = .ok t ∧ t.sp.val = s.sp.val + as.length ∧ popAll as.length t = .ok (as.reverse, u) ∧
    (∀ k : Fin 16, k.val < s.sp.val → u.stack[k.val] = s.stack[k.val]) ∧ u = { s with stack := u.stack }) ∧
  (∀ (a : Word) (s : State), s.sp.val = 16 → push a s = .error .stackOverflow) ∧
  ∀ s : State, s.sp.val = 0 → pop s = .error .stackUnderflow

/-- The source's draw property (95_test_vectors.md W5), for coordinates in registers other than VF: drawing a sprite
twice restores the display, whatever was on it; over a blank display the first draw leaves VF 0, and the second sets
VF exactly when the sprite had a visible pixel. The VF clauses rest on the choices D12 (DXY0 sets VF to 0) and D42
(a clipped pixel never counts), log 12. With X = 15 or Y = 15 the first draw changes a coordinate of the second;
`DrawXorsSprite` covers every single draw, those forms included. -/
def Obligations.DrawTwiceRestoresDisplay : Prop :=
  ∀ (s t : State) (x y : Reg) (n : Fin 16), x ≠ 15 → y ≠ 15 → exec (.drw x y n) s = .next t →
    ∃ u, exec (.drw x y n) t = .next u ∧ u.fb = s.fb ∧
      ((∀ px py, s.fb.pixel px py = false) →
        t.getV 15 = 0 ∧ (u.getV 15 = 1 ↔ ∃ px py, t.fb.pixel px py = true))

/-! ### Reset, host operations, invariants -/

/-- R32, R121, with the choices of decisions D24, D25 and D26: the reset state, and that `init()` and `reset()` leave
it from every state, with the instance's parameters. That `State.reset` itself has the default parameters is the
model's choice: the quirks by log 3 (DESIGN CHOICE, D4 to D7), the font and its address by log 4 (PRESUMED, D8, D9). -/
def Obligations.ResetLeavesZeroFontState : Prop :=
  IsResetState State.reset ∧ State.reset.cfg = defaultConfig ∧
  ∀ s : State, ∀ op ∈ [HostOp.init, HostOp.reset], ∃ t, perform op s = (t, .ok) ∧ IsResetState t ∧ t.cfg = s.cfg

/-- R49, with the choices of decision D27. -/
def Obligations.LoadCopiesRom : Prop :=
  ∀ (rom : List Byte) (s : State),
    (0x200 + rom.length > 4096 → perform (.load rom) s = (s, .err .romTooLarge)) ∧
    (0x200 + rom.length ≤ 4096 → ∃ t, perform (.load rom) s = (t, .ok) ∧
      (∀ k, (hk : k < rom.length) → t.peek (0x200 + k) = rom[k]) ∧
      (∀ a, a < 0x200 ∨ 0x200 + rom.length ≤ a → t.peek a = s.peek a) ∧ t = { s with mem := t.mem })

/-- R114, with the choice of decision D40. -/
def Obligations.SetKeyWritesOneKey : Prop :=
  ∀ (k : Nat) (p : Bool) (s : State),
    (k > 15 → perform (.setKey k p) s = (s, .err .invalidKeyIndex)) ∧
    (k ≤ 15 → ∃ t, perform (.setKey k p) s = (t, .ok) ∧
      (∀ j : Fin 16, t.pressed j = if j.val = k then p else s.pressed j) ∧ t = { s with key := t.key })

/-- R103: each counter above 0 goes down by exactly 1, a counter at 0 stays, nothing else changes. A step never does
this: it leaves DT alone unless it is FX15, and ST unless it is FX18. -/
def Obligations.TickDecrementsTimers : Prop :=
  (∀ s : State, ∃ t, perform .tick s = (t, .ok) ∧
    (0 < s.dt.toNat → t.dt.toNat + 1 = s.dt.toNat) ∧ (s.dt.toNat = 0 → t.dt.toNat = 0) ∧
    (0 < s.st.toNat → t.st.toNat + 1 = s.st.toNat) ∧ (s.st.toNat = 0 → t.st.toNat = 0) ∧
    t = { s with dt := t.dt, st := t.st }) ∧
  ∀ (s t : State), step s = .next t →
    (t.dt = s.dt ∨ ∃ w x, fetch s = .ok w ∧ decode w = .ok (.ldDtVx x)) ∧
    (t.st = s.st ∨ ∃ w x, fetch s = .ok w ∧ decode w = .ok (.ldStVx x))

/-- R26 and W6: after `n` ticks each counter is lower by `n`, and never below 0. -/
def Obligations.TicksCountDownToZero : Prop :=
  ∀ (n : Nat) (s : State), ∃ t, performAll (List.replicate n .tick) s = (t, List.replicate n .ok) ∧
    t.dt.toNat = s.dt.toNat - n ∧ t.st.toNat = s.st.toNat - n ∧ t = { s with dt := t.dt, st := t.st }

/-- The reset state meets the invariant, for every choice of parameters. -/
def Obligations.ResetMeetsInvariant : Prop :=
  State.reset.Inv ∧ ∀ (c : Config) (n : Nat), (State.resetWith c n).Inv

/-- Every successful step keeps the invariant: memory in canonical form, PC at most 0x10FE, every valid call-stack
entry at most 0x1000 (R24, R25, R37). -/
def Obligations.StepKeepsInvariant : Prop :=
  ∀ s t : State, s.Inv → step s = .next t → t.Inv

/-- Every state that any sequence of host operations (R113, R115) reaches from `init()` meets the invariant, and has
the parameters of its instance. -/
def Obligations.ReachableStatesMeetInvariant : Prop :=
  ∀ (c : Config) (s : State), Reachable c s → s.Inv ∧ s.cfg = c
end

