-- ==== Sys2Proof/Laws/Decode.lean ====
section
/-! SUPPORT. The fields of the encoder's three word shapes (R51). -/

namespace Sys2Proof

@[simp] theorem fieldOp_wordNNN (op : BitVec 4) (nnn : Addr) : fieldOp (wordNNN op nnn) = op :=
  BitVec.extractLsb'_append_eq_left (a := op) (b := nnn)

@[simp] theorem fieldNNN_wordNNN (op : BitVec 4) (nnn : Addr) : fieldNNN (wordNNN op nnn) = nnn :=
  BitVec.extractLsb'_append_eq_right (a := op) (b := nnn)

@[simp] theorem fieldX_wordNNN (op : BitVec 4) (nnn : Addr) : fieldX (wordNNN op nnn) = topNibble nnn :=
  congrArg BitVec.toFin (BitVec.extractLsb'_append_eq_of_add_le (xhi := op) (xlo := nnn) (start := 8) (len := 4)
    (by decide))

@[simp] theorem fieldOp_wordXNN (op : BitVec 4) (x : Reg) (nn : Byte) : fieldOp (wordXNN op x nn) = op :=
  (BitVec.extractLsb'_append_eq_of_le (xhi := op ++ BitVec.ofFin (w := 4) x) (xlo := nn) (start := 12) (len := 4)
    (by decide)).trans BitVec.extractLsb'_append_eq_left

@[simp] theorem fieldX_wordXNN (op : BitVec 4) (x : Reg) (nn : Byte) : fieldX (wordXNN op x nn) = x :=
  congrArg BitVec.toFin ((BitVec.extractLsb'_append_eq_of_le (xhi := op ++ BitVec.ofFin (w := 4) x) (xlo := nn)
    (start := 8) (len := 4) (by decide)).trans BitVec.extractLsb'_append_eq_right)

@[simp] theorem fieldNN_wordXNN (op : BitVec 4) (x : Reg) (nn : Byte) : fieldNN (wordXNN op x nn) = nn :=
  BitVec.extractLsb'_append_eq_right (a := op ++ BitVec.ofFin (w := 4) x) (b := nn)

@[simp] theorem fieldOp_wordXYN (op n : BitVec 4) (x y : Reg) : fieldOp (wordXYN op x y n) = op :=
  (BitVec.extractLsb'_append_eq_of_le (xhi := op ++ BitVec.ofFin (w := 4) x ++ BitVec.ofFin (w := 4) y) (xlo := n)
    (start := 12) (len := 4) (by decide)).trans
  ((BitVec.extractLsb'_append_eq_of_le (xhi := op ++ BitVec.ofFin (w := 4) x) (xlo := BitVec.ofFin (w := 4) y)
    (start := 8) (len := 4) (by decide)).trans BitVec.extractLsb'_append_eq_left)

@[simp] theorem fieldX_wordXYN (op n : BitVec 4) (x y : Reg) : fieldX (wordXYN op x y n) = x :=
  congrArg BitVec.toFin ((BitVec.extractLsb'_append_eq_of_le
    (xhi := op ++ BitVec.ofFin (w := 4) x ++ BitVec.ofFin (w := 4) y) (xlo := n) (start := 8) (len := 4)
    (by decide)).trans ((BitVec.extractLsb'_append_eq_of_le (xhi := op ++ BitVec.ofFin (w := 4) x)
    (xlo := BitVec.ofFin (w := 4) y) (start := 4) (len := 4) (by decide)).trans BitVec.extractLsb'_append_eq_right))

@[simp] theorem fieldY_wordXYN (op n : BitVec 4) (x y : Reg) : fieldY (wordXYN op x y n) = y :=
  congrArg BitVec.toFin ((BitVec.extractLsb'_append_eq_of_le
    (xhi := op ++ BitVec.ofFin (w := 4) x ++ BitVec.ofFin (w := 4) y) (xlo := n) (start := 4) (len := 4)
    (by decide)).trans BitVec.extractLsb'_append_eq_right)

@[simp] theorem fieldN_wordXYN (op n : BitVec 4) (x y : Reg) : fieldN (wordXYN op x y n) = n :=
  BitVec.extractLsb'_append_eq_right (a := op ++ BitVec.ofFin (w := 4) x ++ BitVec.ofFin (w := 4) y) (b := n)

/-! ### A word is made of its fields (R51) -/

theorem wordNNN_fields (w : Word) : wordNNN (fieldOp w) (fieldNNN w) = w :=
  (BitVec.extractLsb'_append_extractLsb'_eq_extractLsb' (x := w) (start₁ := 0) (start₂ := 12) (len₁ := 12)
    (len₂ := 4) rfl).trans BitVec.extractLsb'_eq_self

theorem fields_high (w : Word) : (fieldOp w ++ BitVec.ofFin (w := 4) (fieldX w) : BitVec 8) = w.extractLsb' 8 8 :=
  BitVec.extractLsb'_append_extractLsb'_eq_extractLsb' (x := w) (start₁ := 8) (start₂ := 12) (len₁ := 4)
    (len₂ := 4) rfl

theorem wordXNN_fields (w : Word) : wordXNN (fieldOp w) (fieldX w) (fieldNN w) = w := by
  unfold wordXNN
  rw [fields_high]
  exact (BitVec.extractLsb'_append_extractLsb'_eq_extractLsb' (x := w) (start₁ := 0) (start₂ := 8) (len₁ := 8)
    (len₂ := 8) rfl).trans BitVec.extractLsb'_eq_self

theorem wordXYN_fields (w : Word) : wordXYN (fieldOp w) (fieldX w) (fieldY w) (fieldN w) = w := by
  have h : (w.extractLsb' 8 8 ++ BitVec.ofFin (w := 4) (fieldY w) : BitVec 12) = w.extractLsb' 4 12 :=
    BitVec.extractLsb'_append_extractLsb'_eq_extractLsb' (x := w) (start₁ := 4) (start₂ := 8) (len₁ := 4)
      (len₂ := 8) rfl
  unfold wordXYN
  rw [fields_high, h]
  exact (BitVec.extractLsb'_append_extractLsb'_eq_extractLsb' (x := w) (start₁ := 0) (start₂ := 4) (len₁ := 4)
    (len₂ := 12) rfl).trans BitVec.extractLsb'_eq_self

theorem fieldX_eq_topNibble (w : Word) : fieldX w = topNibble (fieldNNN w) := by
  have h := fieldX_wordNNN (fieldOp w) (fieldNNN w)
  rwa [wordNNN_fields] at h

/-! ### The fields as numbers -/

theorem toNat_fieldOp (w : Word) : (fieldOp w).toNat = w.toNat / 4096 := by
  have := w.isLt
  simp [fieldOp, Nat.shiftRight_eq_div_pow]
  omega

theorem toNat_fieldN (w : Word) : (fieldN w).toNat = w.toNat % 16 := by
  simp [fieldN]

theorem toNat_fieldNN (w : Word) : (fieldNN w).toNat = w.toNat % 256 := by
  simp [fieldNN]

end Sys2Proof
end

