-- ==== Sys2Proof/Laws/Memory.lean ====
section
/-! SUPPORT. The laws of memory: reads after writes, and that writes keep the canonical form. -/

namespace Sys2Proof.Machine

/-! ### Looking a cell up after an insertion or a removal -/

@[simp] theorem Memory.find_insert_same (m : Memory) (a : Nat) (v : Byte) : (m.insert a v).find a = some v := by
  induction m with
  | nil => simp [Memory.insert, Memory.find]
  | cons p m ih =>
    obtain ⟨k, b⟩ := p
    by_cases h1 : a < k
    · simp [Memory.insert, Memory.find, h1]
    · by_cases h2 : k = a
      · simp [Memory.insert, Memory.find, h2]
      · simp [Memory.insert, Memory.find, h1, h2, ih]

theorem Memory.find_insert_other (m : Memory) {a b : Nat} (v : Byte) (h : b ≠ a) :
    (m.insert a v).find b = m.find b := by
  induction m with
  | nil => simp [Memory.insert, Memory.find, h.symm]
  | cons p m ih =>
    obtain ⟨k, c⟩ := p
    by_cases h1 : a < k
    · simp [Memory.insert, Memory.find, h1, h.symm]
    · by_cases h2 : k = a
      · simp [Memory.insert, Memory.find, h2, h.symm]
      · simp [Memory.insert, Memory.find, h1, h2, ih]

@[simp] theorem Memory.find_erase_same (m : Memory) (a : Nat) : (m.erase a).find a = none := by
  induction m with
  | nil => rfl
  | cons p m ih =>
    obtain ⟨k, b⟩ := p
    simp only [Memory.erase, ne_eq, decide_not] at ih
    by_cases h : k = a <;> simp [Memory.erase, Memory.find, List.filter, h, ih]

theorem Memory.find_erase_other (m : Memory) {a b : Nat} (h : b ≠ a) : (m.erase a).find b = m.find b := by
  induction m with
  | nil => rfl
  | cons p m ih =>
    obtain ⟨k, c⟩ := p
    simp only [Memory.erase, ne_eq, decide_not] at ih
    by_cases h1 : k = a
    · simp [Memory.erase, Memory.find, h1, h.symm, ih]
    · simp [Memory.erase, Memory.find, h1, ih]

/-! ### Reads after writes (R50) -/

@[simp] theorem Memory.get_nil (c : Config) (a : Nat) : Memory.get c [] a = resetByte c a := rfl

theorem Memory.get_set (c : Config) (m : Memory) (a b : Nat) (v : Byte) :
    (m.set c a v).get c b = if b = a then v else m.get c b := by
  by_cases h : b = a
  · subst h
    by_cases hv : v = resetByte c b <;> simp [Memory.set, Memory.get, hv]
  · by_cases hv : v = resetByte c a
    · simp [Memory.set, Memory.get, hv, h, Memory.find_erase_other]
    · simp [Memory.set, Memory.get, hv, h, Memory.find_insert_other]

/-- What every byte reads as after a run of bytes has been written. -/
theorem Memory.get_setBytes (c : Config) (vs : List Byte) (m : Memory) (a b : Nat) :
    (m.setBytes c a vs).get c b = if a ≤ b then vs.getD (b - a) (m.get c b) else m.get c b := by
  induction vs generalizing m a with
  | nil => simp [Memory.setBytes]
  | cons v vs ih =>
    rw [Memory.setBytes, ih, Memory.get_set]
    rcases Nat.lt_trichotomy b a with h | h | h
    · have h1 : ¬ a + 1 ≤ b := by omega
      have h2 : ¬ a ≤ b := by omega
      have h3 : b ≠ a := by omega
      simp [h1, h2, h3]
    · subst h
      simp
    · have h1 : a + 1 ≤ b := by omega
      have h2 : a ≤ b := by omega
      have h3 : b ≠ a := by omega
      have h4 : b - a = (b - (a + 1)) + 1 := by omega
      simp [h1, h2, h3, h4]

/-! ### Writes keep the canonical form -/

theorem Memory.mem_insert {m : Memory} {a : Nat} {v : Byte} {p : Host.Cell} (h : p ∈ m.insert a v) :
    p = (a, v) ∨ p ∈ m := by
  induction m with
  | nil => exact .inl (by simpa [Memory.insert] using h)
  | cons q m ih =>
    obtain ⟨k, b⟩ := q
    simp only [Memory.insert] at h
    split at h
    · simpa [or_assoc] using h
    · split at h
      · rcases List.mem_cons.1 h with h | h
        · exact .inl h
        · exact .inr (List.mem_cons_of_mem _ h)
      · rcases List.mem_cons.1 h with h | h
        · exact .inr (h ▸ List.mem_cons_self)
        · exact (ih h).imp id (List.mem_cons_of_mem _)

theorem Memory.sorted_insert {m : Memory} (a : Nat) (v : Byte) (h : m.Pairwise (fun p q => p.1 < q.1)) :
    (m.insert a v).Pairwise (fun p q => p.1 < q.1) := by
  induction m with
  | nil => simp [Memory.insert]
  | cons q m ih =>
    obtain ⟨k, b⟩ := q
    obtain ⟨hk, hm⟩ := List.pairwise_cons.1 h
    simp only [Memory.insert]
    split
    · next hlt =>
      refine List.pairwise_cons.2 ⟨fun p hp => ?_, h⟩
      rcases List.mem_cons.1 hp with rfl | hp
      · exact hlt
      · exact Nat.lt_trans hlt (hk p hp)
    · split
      · next _ he =>
        subst he
        exact List.pairwise_cons.2 ⟨fun p hp => hk p hp, hm⟩
      · next h1 h2 =>
        refine List.pairwise_cons.2 ⟨fun p hp => ?_, ih hm⟩
        rcases Memory.mem_insert hp with rfl | hp
        · show k < a
          omega
        · exact hk p hp

theorem Memory.wf_nil (c : Config) : Memory.wf c [] := by
  simp [Memory.wf]

theorem Memory.wf_set {c : Config} {m : Memory} {a : Nat} (v : Byte) (h : m.wf c) (ha : a < memSize) :
    (m.set c a v).wf c := by
  unfold Memory.set
  split
  · exact ⟨h.1.filter _, fun p hp => h.2 p (List.mem_of_mem_filter hp)⟩
  · next hv =>
    refine ⟨Memory.sorted_insert a v h.1, fun p hp => ?_⟩
    rcases Memory.mem_insert hp with rfl | hp
    · exact ⟨ha, hv⟩
    · exact h.2 p hp

theorem Memory.wf_setBytes {c : Config} {vs : List Byte} {m : Memory} {a : Nat} (h : m.wf c)
    (ha : ∀ k < vs.length, a + k < memSize) : (m.setBytes c a vs).wf c := by
  induction vs generalizing m a with
  | nil => exact h
  | cons v vs ih =>
    refine ih (Memory.wf_set v h (by simpa using ha 0 (by simp))) fun k hk => ?_
    have := ha (k + 1) (by simpa using hk)
    omega

end Sys2Proof.Machine
end

