-- ==== Sys2Proof/Laws/State.lean ====
section
/-! SUPPORT. One lemma per field per update of the state, and the register file's read and write laws. -/

namespace Sys2Proof.Machine

/-! ### `State.setV` -/

@[simp] theorem State.setV_v (s : State) (x : Reg) (b : Byte) : (s.setV x b).v = s.v.set x.val b := rfl
@[simp] theorem State.setV_i (s : State) (x : Reg) (b : Byte) : (s.setV x b).i = s.i := rfl
@[simp] theorem State.setV_pc (s : State) (x : Reg) (b : Byte) : (s.setV x b).pc = s.pc := rfl
@[simp] theorem State.setV_sp (s : State) (x : Reg) (b : Byte) : (s.setV x b).sp = s.sp := rfl
@[simp] theorem State.setV_stack (s : State) (x : Reg) (b : Byte) : (s.setV x b).stack = s.stack := rfl
@[simp] theorem State.setV_dt (s : State) (x : Reg) (b : Byte) : (s.setV x b).dt = s.dt := rfl
@[simp] theorem State.setV_st (s : State) (x : Reg) (b : Byte) : (s.setV x b).st = s.st := rfl
@[simp] theorem State.setV_fb (s : State) (x : Reg) (b : Byte) : (s.setV x b).fb = s.fb := rfl
@[simp] theorem State.setV_key (s : State) (x : Reg) (b : Byte) : (s.setV x b).key = s.key := rfl
@[simp] theorem State.setV_mem (s : State) (x : Reg) (b : Byte) : (s.setV x b).mem = s.mem := rfl
@[simp] theorem State.setV_draws (s : State) (x : Reg) (b : Byte) : (s.setV x b).draws = s.draws := rfl
@[simp] theorem State.setV_cfg (s : State) (x : Reg) (b : Byte) : (s.setV x b).cfg = s.cfg := rfl

/-! ### `State.setI` -/

@[simp] theorem State.setI_v (s : State) (w : Word) : (s.setI w).v = s.v := rfl
@[simp] theorem State.setI_i (s : State) (w : Word) : (s.setI w).i = w := rfl
@[simp] theorem State.setI_pc (s : State) (w : Word) : (s.setI w).pc = s.pc := rfl
@[simp] theorem State.setI_sp (s : State) (w : Word) : (s.setI w).sp = s.sp := rfl
@[simp] theorem State.setI_stack (s : State) (w : Word) : (s.setI w).stack = s.stack := rfl
@[simp] theorem State.setI_dt (s : State) (w : Word) : (s.setI w).dt = s.dt := rfl
@[simp] theorem State.setI_st (s : State) (w : Word) : (s.setI w).st = s.st := rfl
@[simp] theorem State.setI_fb (s : State) (w : Word) : (s.setI w).fb = s.fb := rfl
@[simp] theorem State.setI_key (s : State) (w : Word) : (s.setI w).key = s.key := rfl
@[simp] theorem State.setI_mem (s : State) (w : Word) : (s.setI w).mem = s.mem := rfl
@[simp] theorem State.setI_draws (s : State) (w : Word) : (s.setI w).draws = s.draws := rfl
@[simp] theorem State.setI_cfg (s : State) (w : Word) : (s.setI w).cfg = s.cfg := rfl

/-! ### `State.setPc` -/

@[simp] theorem State.setPc_v (s : State) (w : Word) : (s.setPc w).v = s.v := rfl
@[simp] theorem State.setPc_i (s : State) (w : Word) : (s.setPc w).i = s.i := rfl
@[simp] theorem State.setPc_pc (s : State) (w : Word) : (s.setPc w).pc = w := rfl
@[simp] theorem State.setPc_sp (s : State) (w : Word) : (s.setPc w).sp = s.sp := rfl
@[simp] theorem State.setPc_stack (s : State) (w : Word) : (s.setPc w).stack = s.stack := rfl
@[simp] theorem State.setPc_dt (s : State) (w : Word) : (s.setPc w).dt = s.dt := rfl
@[simp] theorem State.setPc_st (s : State) (w : Word) : (s.setPc w).st = s.st := rfl
@[simp] theorem State.setPc_fb (s : State) (w : Word) : (s.setPc w).fb = s.fb := rfl
@[simp] theorem State.setPc_key (s : State) (w : Word) : (s.setPc w).key = s.key := rfl
@[simp] theorem State.setPc_mem (s : State) (w : Word) : (s.setPc w).mem = s.mem := rfl
@[simp] theorem State.setPc_draws (s : State) (w : Word) : (s.setPc w).draws = s.draws := rfl
@[simp] theorem State.setPc_cfg (s : State) (w : Word) : (s.setPc w).cfg = s.cfg := rfl

/-! ### `State.setDt` -/

@[simp] theorem State.setDt_v (s : State) (b : Byte) : (s.setDt b).v = s.v := rfl
@[simp] theorem State.setDt_i (s : State) (b : Byte) : (s.setDt b).i = s.i := rfl
@[simp] theorem State.setDt_pc (s : State) (b : Byte) : (s.setDt b).pc = s.pc := rfl
@[simp] theorem State.setDt_sp (s : State) (b : Byte) : (s.setDt b).sp = s.sp := rfl
@[simp] theorem State.setDt_stack (s : State) (b : Byte) : (s.setDt b).stack = s.stack := rfl
@[simp] theorem State.setDt_dt (s : State) (b : Byte) : (s.setDt b).dt = b := rfl
@[simp] theorem State.setDt_st (s : State) (b : Byte) : (s.setDt b).st = s.st := rfl
@[simp] theorem State.setDt_fb (s : State) (b : Byte) : (s.setDt b).fb = s.fb := rfl
@[simp] theorem State.setDt_key (s : State) (b : Byte) : (s.setDt b).key = s.key := rfl
@[simp] theorem State.setDt_mem (s : State) (b : Byte) : (s.setDt b).mem = s.mem := rfl
@[simp] theorem State.setDt_draws (s : State) (b : Byte) : (s.setDt b).draws = s.draws := rfl
@[simp] theorem State.setDt_cfg (s : State) (b : Byte) : (s.setDt b).cfg = s.cfg := rfl

/-! ### `State.setSt` -/

@[simp] theorem State.setSt_v (s : State) (b : Byte) : (s.setSt b).v = s.v := rfl
@[simp] theorem State.setSt_i (s : State) (b : Byte) : (s.setSt b).i = s.i := rfl
@[simp] theorem State.setSt_pc (s : State) (b : Byte) : (s.setSt b).pc = s.pc := rfl
@[simp] theorem State.setSt_sp (s : State) (b : Byte) : (s.setSt b).sp = s.sp := rfl
@[simp] theorem State.setSt_stack (s : State) (b : Byte) : (s.setSt b).stack = s.stack := rfl
@[simp] theorem State.setSt_dt (s : State) (b : Byte) : (s.setSt b).dt = s.dt := rfl
@[simp] theorem State.setSt_st (s : State) (b : Byte) : (s.setSt b).st = b := rfl
@[simp] theorem State.setSt_fb (s : State) (b : Byte) : (s.setSt b).fb = s.fb := rfl
@[simp] theorem State.setSt_key (s : State) (b : Byte) : (s.setSt b).key = s.key := rfl
@[simp] theorem State.setSt_mem (s : State) (b : Byte) : (s.setSt b).mem = s.mem := rfl
@[simp] theorem State.setSt_draws (s : State) (b : Byte) : (s.setSt b).draws = s.draws := rfl
@[simp] theorem State.setSt_cfg (s : State) (b : Byte) : (s.setSt b).cfg = s.cfg := rfl

/-! ### `State.setFb` -/

@[simp] theorem State.setFb_v (s : State) (fb : Framebuffer) : (s.setFb fb).v = s.v := rfl
@[simp] theorem State.setFb_i (s : State) (fb : Framebuffer) : (s.setFb fb).i = s.i := rfl
@[simp] theorem State.setFb_pc (s : State) (fb : Framebuffer) : (s.setFb fb).pc = s.pc := rfl
@[simp] theorem State.setFb_sp (s : State) (fb : Framebuffer) : (s.setFb fb).sp = s.sp := rfl
@[simp] theorem State.setFb_stack (s : State) (fb : Framebuffer) : (s.setFb fb).stack = s.stack := rfl
@[simp] theorem State.setFb_dt (s : State) (fb : Framebuffer) : (s.setFb fb).dt = s.dt := rfl
@[simp] theorem State.setFb_st (s : State) (fb : Framebuffer) : (s.setFb fb).st = s.st := rfl
@[simp] theorem State.setFb_fb (s : State) (fb : Framebuffer) : (s.setFb fb).fb = fb := rfl
@[simp] theorem State.setFb_key (s : State) (fb : Framebuffer) : (s.setFb fb).key = s.key := rfl
@[simp] theorem State.setFb_mem (s : State) (fb : Framebuffer) : (s.setFb fb).mem = s.mem := rfl
@[simp] theorem State.setFb_draws (s : State) (fb : Framebuffer) : (s.setFb fb).draws = s.draws := rfl
@[simp] theorem State.setFb_cfg (s : State) (fb : Framebuffer) : (s.setFb fb).cfg = s.cfg := rfl

/-! ### `State.setMem` -/

@[simp] theorem State.setMem_v (s : State) (m : Memory) : (s.setMem m).v = s.v := rfl
@[simp] theorem State.setMem_i (s : State) (m : Memory) : (s.setMem m).i = s.i := rfl
@[simp] theorem State.setMem_pc (s : State) (m : Memory) : (s.setMem m).pc = s.pc := rfl
@[simp] theorem State.setMem_sp (s : State) (m : Memory) : (s.setMem m).sp = s.sp := rfl
@[simp] theorem State.setMem_stack (s : State) (m : Memory) : (s.setMem m).stack = s.stack := rfl
@[simp] theorem State.setMem_dt (s : State) (m : Memory) : (s.setMem m).dt = s.dt := rfl
@[simp] theorem State.setMem_st (s : State) (m : Memory) : (s.setMem m).st = s.st := rfl
@[simp] theorem State.setMem_fb (s : State) (m : Memory) : (s.setMem m).fb = s.fb := rfl
@[simp] theorem State.setMem_key (s : State) (m : Memory) : (s.setMem m).key = s.key := rfl
@[simp] theorem State.setMem_mem (s : State) (m : Memory) : (s.setMem m).mem = m := rfl
@[simp] theorem State.setMem_draws (s : State) (m : Memory) : (s.setMem m).draws = s.draws := rfl
@[simp] theorem State.setMem_cfg (s : State) (m : Memory) : (s.setMem m).cfg = s.cfg := rfl

/-! ### `State.setKeyAt` -/

@[simp] theorem State.setKeyAt_v (s : State) (k : Fin 16) (p : Bool) : (s.setKeyAt k p).v = s.v := rfl
@[simp] theorem State.setKeyAt_i (s : State) (k : Fin 16) (p : Bool) : (s.setKeyAt k p).i = s.i := rfl
@[simp] theorem State.setKeyAt_pc (s : State) (k : Fin 16) (p : Bool) : (s.setKeyAt k p).pc = s.pc := rfl
@[simp] theorem State.setKeyAt_sp (s : State) (k : Fin 16) (p : Bool) : (s.setKeyAt k p).sp = s.sp := rfl
@[simp] theorem State.setKeyAt_stack (s : State) (k : Fin 16) (p : Bool) : (s.setKeyAt k p).stack = s.stack := rfl
@[simp] theorem State.setKeyAt_dt (s : State) (k : Fin 16) (p : Bool) : (s.setKeyAt k p).dt = s.dt := rfl
@[simp] theorem State.setKeyAt_st (s : State) (k : Fin 16) (p : Bool) : (s.setKeyAt k p).st = s.st := rfl
@[simp] theorem State.setKeyAt_fb (s : State) (k : Fin 16) (p : Bool) : (s.setKeyAt k p).fb = s.fb := rfl
@[simp] theorem State.setKeyAt_key (s : State) (k : Fin 16) (p : Bool) : (s.setKeyAt k p).key = s.key.set k.val p := rfl
@[simp] theorem State.setKeyAt_mem (s : State) (k : Fin 16) (p : Bool) : (s.setKeyAt k p).mem = s.mem := rfl
@[simp] theorem State.setKeyAt_draws (s : State) (k : Fin 16) (p : Bool) : (s.setKeyAt k p).draws = s.draws := rfl
@[simp] theorem State.setKeyAt_cfg (s : State) (k : Fin 16) (p : Bool) : (s.setKeyAt k p).cfg = s.cfg := rfl

/-! ### `State.loadV` -/

@[simp] theorem State.loadV_v (s : State) (bs : List Byte) : (s.loadV bs).v = loadRegs s.v 0 bs := rfl
@[simp] theorem State.loadV_i (s : State) (bs : List Byte) : (s.loadV bs).i = s.i := rfl
@[simp] theorem State.loadV_pc (s : State) (bs : List Byte) : (s.loadV bs).pc = s.pc := rfl
@[simp] theorem State.loadV_sp (s : State) (bs : List Byte) : (s.loadV bs).sp = s.sp := rfl
@[simp] theorem State.loadV_stack (s : State) (bs : List Byte) : (s.loadV bs).stack = s.stack := rfl
@[simp] theorem State.loadV_dt (s : State) (bs : List Byte) : (s.loadV bs).dt = s.dt := rfl
@[simp] theorem State.loadV_st (s : State) (bs : List Byte) : (s.loadV bs).st = s.st := rfl
@[simp] theorem State.loadV_fb (s : State) (bs : List Byte) : (s.loadV bs).fb = s.fb := rfl
@[simp] theorem State.loadV_key (s : State) (bs : List Byte) : (s.loadV bs).key = s.key := rfl
@[simp] theorem State.loadV_mem (s : State) (bs : List Byte) : (s.loadV bs).mem = s.mem := rfl
@[simp] theorem State.loadV_draws (s : State) (bs : List Byte) : (s.loadV bs).draws = s.draws := rfl
@[simp] theorem State.loadV_cfg (s : State) (bs : List Byte) : (s.loadV bs).cfg = s.cfg := rfl

/-! ### `advancePc` -/

@[simp] theorem advancePc_v (s : State) : (advancePc s).v = s.v := rfl
@[simp] theorem advancePc_i (s : State) : (advancePc s).i = s.i := rfl
@[simp] theorem advancePc_pc (s : State) : (advancePc s).pc = s.pc + 2 := rfl
@[simp] theorem advancePc_sp (s : State) : (advancePc s).sp = s.sp := rfl
@[simp] theorem advancePc_stack (s : State) : (advancePc s).stack = s.stack := rfl
@[simp] theorem advancePc_dt (s : State) : (advancePc s).dt = s.dt := rfl
@[simp] theorem advancePc_st (s : State) : (advancePc s).st = s.st := rfl
@[simp] theorem advancePc_fb (s : State) : (advancePc s).fb = s.fb := rfl
@[simp] theorem advancePc_key (s : State) : (advancePc s).key = s.key := rfl
@[simp] theorem advancePc_mem (s : State) : (advancePc s).mem = s.mem := rfl
@[simp] theorem advancePc_draws (s : State) : (advancePc s).draws = s.draws := rfl
@[simp] theorem advancePc_cfg (s : State) : (advancePc s).cfg = s.cfg := rfl

/-! ### Registers: reading what was written (R20) -/

theorem State.getV_setV (s : State) (x r : Reg) (b : Byte) :
    (s.setV x b).getV r = if r = x then b else s.getV r := by
  simp only [State.getV, State.setV, Vector.getElem_set, Fin.ext_iff, eq_comm]

@[simp] theorem State.getV_setV_same (s : State) (x : Reg) (b : Byte) : (s.setV x b).getV x = b := by
  simp [State.getV_setV]

theorem State.getV_setV_other (s : State) {x r : Reg} (b : Byte) (h : r ≠ x) :
    (s.setV x b).getV r = s.getV r := by
  simp [State.getV_setV, h]

/-- Writing a register its own value changes nothing (R62, R75). -/
theorem State.setV_getV (s : State) (x : Reg) : s.setV x (s.getV x) = s := by
  simp [State.setV, State.getV]

@[simp] theorem State.setI_getV (s : State) (w : Word) (r : Reg) : (s.setI w).getV r = s.getV r := rfl
@[simp] theorem State.setPc_getV (s : State) (w : Word) (r : Reg) : (s.setPc w).getV r = s.getV r := rfl
@[simp] theorem State.setDt_getV (s : State) (b : Byte) (r : Reg) : (s.setDt b).getV r = s.getV r := rfl
@[simp] theorem State.setSt_getV (s : State) (b : Byte) (r : Reg) : (s.setSt b).getV r = s.getV r := rfl
@[simp] theorem State.setFb_getV (s : State) (fb : Framebuffer) (r : Reg) : (s.setFb fb).getV r = s.getV r := rfl
@[simp] theorem State.setMem_getV (s : State) (m : Memory) (r : Reg) : (s.setMem m).getV r = s.getV r := rfl
@[simp] theorem State.setKeyAt_getV (s : State) (k : Fin 16) (p : Bool) (r : Reg) : (s.setKeyAt k p).getV r = s.getV r := rfl
@[simp] theorem advancePc_getV (s : State) (r : Reg) : (advancePc s).getV r = s.getV r := rfl

/-! ### Memory bytes and keys under the other updates -/

@[simp] theorem State.setV_peek (s : State) (x : Reg) (b : Byte) (a : Nat) : (s.setV x b).peek a = s.peek a := rfl
@[simp] theorem State.setV_pressed (s : State) (x : Reg) (b : Byte) (j : Fin 16) : (s.setV x b).pressed j = s.pressed j := rfl
@[simp] theorem State.setI_peek (s : State) (w : Word) (a : Nat) : (s.setI w).peek a = s.peek a := rfl
@[simp] theorem State.setI_pressed (s : State) (w : Word) (j : Fin 16) : (s.setI w).pressed j = s.pressed j := rfl
@[simp] theorem State.setPc_peek (s : State) (w : Word) (a : Nat) : (s.setPc w).peek a = s.peek a := rfl
@[simp] theorem State.setPc_pressed (s : State) (w : Word) (j : Fin 16) : (s.setPc w).pressed j = s.pressed j := rfl
@[simp] theorem State.setDt_peek (s : State) (b : Byte) (a : Nat) : (s.setDt b).peek a = s.peek a := rfl
@[simp] theorem State.setDt_pressed (s : State) (b : Byte) (j : Fin 16) : (s.setDt b).pressed j = s.pressed j := rfl
@[simp] theorem State.setSt_peek (s : State) (b : Byte) (a : Nat) : (s.setSt b).peek a = s.peek a := rfl
@[simp] theorem State.setSt_pressed (s : State) (b : Byte) (j : Fin 16) : (s.setSt b).pressed j = s.pressed j := rfl
@[simp] theorem State.setFb_peek (s : State) (fb : Framebuffer) (a : Nat) : (s.setFb fb).peek a = s.peek a := rfl
@[simp] theorem State.setFb_pressed (s : State) (fb : Framebuffer) (j : Fin 16) : (s.setFb fb).pressed j = s.pressed j := rfl
@[simp] theorem State.setMem_pressed (s : State) (m : Memory) (j : Fin 16) : (s.setMem m).pressed j = s.pressed j := rfl
@[simp] theorem State.setKeyAt_peek (s : State) (k : Fin 16) (p : Bool) (a : Nat) : (s.setKeyAt k p).peek a = s.peek a := rfl
@[simp] theorem State.loadV_peek (s : State) (bs : List Byte) (a : Nat) : (s.loadV bs).peek a = s.peek a := rfl
@[simp] theorem State.loadV_pressed (s : State) (bs : List Byte) (j : Fin 16) : (s.loadV bs).pressed j = s.pressed j := rfl
@[simp] theorem advancePc_peek (s : State) (a : Nat) : (advancePc s).peek a = s.peek a := rfl
@[simp] theorem advancePc_pressed (s : State) (j : Fin 16) : (advancePc s).pressed j = s.pressed j := rfl

theorem State.pressed_setKeyAt (s : State) (k j : Fin 16) (p : Bool) :
    (s.setKeyAt k p).pressed j = if j = k then p else s.pressed j := by
  simp only [State.pressed, State.setKeyAt, Vector.getElem_set, Fin.ext_iff, eq_comm]

end Sys2Proof.Machine
end

