-- ==== Sys2Proof/Laws/Ops.lean ====
section
/-! SUPPORT. One law per shared operation: everything it can do. -/

namespace Sys2Proof.Machine

/-! ### Errors -/

@[simp] theorem attempt_ok {α : Type} (a : α) (k : α → Answer) : attempt (.ok a) k = k a := rfl

@[simp] theorem attempt_error {α : Type} (e : Fault) (k : α → Answer) : attempt (.error e) k = .fault e := rfl

theorem attempt_next {α : Type} {r : Except Fault α} {k : α → Answer} {t : State} :
    attempt r k = .next t ↔ ∃ a, r = .ok a ∧ k a = .next t := by
  cases r <;> simp

theorem attempt_fault {α : Type} {r : Except Fault α} {k : α → Answer} {e : Fault} :
    attempt r k = .fault e ↔ r = .error e ∨ ∃ a, r = .ok a ∧ k a = .fault e := by
  cases r <;> simp

@[simp] theorem decodeFault_eq (e : Illegal) : decodeFault e = .invalidOpcode := by cases e <;> rfl

/-! ### Bounds, reads and writes (R13, R37, R38) -/

theorem inBounds_iff (a n : Nat) : InBounds a n ↔ n = 0 ∨ a + n ≤ 4096 := by
  constructor
  · intro h
    rcases Nat.eq_zero_or_pos n with h0 | h0
    · exact .inl h0
    · have : a + (n - 1) < 4096 := h (n - 1) (by omega)
      exact .inr (by omega)
  · rintro (h | h) k hk
    · omega
    · show a + k < 4096
      omega

theorem memRead_eq (s : State) (a n : Nat) :
    memRead s a n = if n = 0 ∨ a + n ≤ 4096 then .ok ((List.range n).map fun k => s.peek (a + k))
      else .error .memoryOutOfBounds := by
  simp only [memRead, inBounds_iff]

theorem memWrite_eq (s : State) (a : Nat) (bs : List Byte) :
    memWrite s a bs = if bs.length = 0 ∨ a + bs.length ≤ 4096 then
      .ok (s.setMem (s.mem.setBytes s.cfg a bs)) else .error .memoryOutOfBounds := by
  simp only [memWrite, inBounds_iff]

/-- What a write that answers leaves: memory alone has changed, at the written bytes alone, in canonical form. -/
theorem memWrite_ok {s t : State} {a : Nat} {bs : List Byte} (h : memWrite s a bs = .ok t) :
    t = { s with mem := t.mem } ∧ InBounds a bs.length ∧
    (∀ b, t.peek b = if a ≤ b then bs.getD (b - a) (s.peek b) else s.peek b) ∧
    (s.mem.wf s.cfg → t.mem.wf t.cfg) := by
  unfold memWrite at h
  split at h
  · next hb =>
    cases h
    exact ⟨rfl, hb, fun b => Memory.get_setBytes _ _ _ _ _, fun hw => Memory.wf_setBytes hw hb⟩
  · cases h

theorem memRead_ok {s : State} {a n : Nat} {bs : List Byte} (h : memRead s a n = .ok bs) :
    InBounds a n ∧ bs.length = n ∧ ∀ k (hk : k < bs.length), bs[k] = s.peek (a + k) := by
  unfold memRead at h
  split at h
  · next hb =>
    cases h
    exact ⟨hb, by simp, fun k hk => by simp⟩
  · cases h

theorem writeByte_ok {s t : State} {a : Nat} {v : Byte} (h : writeByte s a v = .ok t) :
    t = { s with mem := t.mem } ∧ a < 4096 ∧ (∀ b, t.peek b = if b = a then v else s.peek b) ∧
    (s.mem.wf s.cfg → t.mem.wf t.cfg) := by
  unfold writeByte at h
  split at h
  · next hb =>
    cases h
    exact ⟨rfl, hb, fun b => Memory.get_set _ _ _ _ _, fun hw => Memory.wf_set _ hw hb⟩
  · cases h

/-! ### Fetch (R53) -/

theorem fetch_eq (s : State) : fetch s = if s.pc.toNat + 1 > 0xFFF then .error .memoryOutOfBounds
    else .ok (wordOfBytes (s.peek s.pc.toNat) (s.peek (s.pc.toNat + 1))) := rfl

theorem fetch_ok {s : State} {w : Word} (h : fetch s = .ok w) :
    s.pc.toNat ≤ 0xFFE ∧ w = wordOfBytes (s.peek s.pc.toNat) (s.peek (s.pc.toNat + 1)) := by
  unfold fetch at h
  split at h
  · cases h
  · cases h
    exact ⟨by omega, rfl⟩

theorem wordOfBytes_bytesOfWord (w : Word) : wordOfBytes (bytesOfWord w).1 (bytesOfWord w).2 = w := by
  have h := BitVec.extractLsb'_append_extractLsb'_eq_extractLsb' (x := w) (start₁ := 0) (start₂ := 8) (len₁ := 8)
    (len₂ := 8) rfl
  exact h.trans (BitVec.extractLsb'_eq_self)

/-- `placeWord` puts the word where `fetch` reads it. -/
theorem fetch_placeWord {s : State} (w : Word) (h : s.pc.toNat ≤ 0xFFE) : fetch (placeWord s w) = .ok w := by
  have h' : ¬ s.pc.toNat + 1 > 0xFFF := by omega
  simp only [fetch, placeWord, h', if_false, State.setMem_pc]
  have h1 : (s.setMem (s.mem.setBytes s.cfg s.pc.toNat [(bytesOfWord w).1, (bytesOfWord w).2])).peek s.pc.toNat
      = (bytesOfWord w).1 := by
    simp [State.peek, Memory.get_setBytes]
  have h2 : (s.setMem (s.mem.setBytes s.cfg s.pc.toNat [(bytesOfWord w).1, (bytesOfWord w).2])).peek
      (s.pc.toNat + 1) = (bytesOfWord w).2 := by
    simp [State.peek, Memory.get_setBytes]
  rw [h1, h2, wordOfBytes_bytesOfWord]

/-! ### The call stack (R25) -/

theorem push_ok {a : Word} {s t : State} (h : push a s = .ok t) :
    s.sp.val < 16 ∧ t.sp.val = s.sp.val + 1 ∧
    (∀ k : Fin 16, t.stack[k.val] = if k.val = s.sp.val then a else s.stack[k.val]) ∧
    t = { s with stack := t.stack, sp := t.sp } := by
  unfold push at h
  split at h
  · next hlt =>
    cases h
    exact ⟨hlt, rfl, fun k => by simp [Vector.getElem_set, eq_comm], rfl⟩
  · cases h

theorem push_error {a : Word} {s : State} {e : Fault} (h : push a s = .error e) :
    e = .stackOverflow ∧ s.sp.val = 16 := by
  unfold push at h
  split at h
  · cases h
  · cases h
    next hn =>
    have := s.sp.isLt
    have : ¬ s.sp.val < 16 := hn
    exact ⟨rfl, by omega⟩

theorem pop_ok {a : Word} {s t : State} (h : pop s = .ok (a, t)) :
    s.sp.val = t.sp.val + 1 ∧ s.stack[t.sp.val]? = some a ∧ t = { s with sp := t.sp } := by
  unfold pop at h
  split at h
  · cases h
  · next hn =>
    cases h
    have := s.sp.isLt
    refine ⟨?_, ?_, rfl⟩
    · show s.sp.val = s.sp.val - 1 + 1
      omega
    · simp

theorem pop_error {s : State} {e : Fault} (h : pop s = .error e) : e = .stackUnderflow ∧ s.sp.val = 0 := by
  unfold pop at h
  split at h
  · next h0 =>
    cases h
    exact ⟨rfl, h0⟩
  · cases h

/-! ### Skips, flags and register results -/

theorem skipIf_eq (b : Bool) (s : State) : skipIf b s = { s with pc := if b then s.pc + 2 else s.pc } := by
  cases b <;> rfl

theorem setResultFlag_eq (s : State) (x : Reg) (r f : Byte) :
    setResultFlag s x r f = { s with v := (setResultFlag s x r f).v } := rfl

theorem getV_setResultFlag (s : State) (x k : Reg) (r f : Byte) :
    (setResultFlag s x r f).getV k = if k = vf then f else if k = x then r else s.getV k := by
  simp only [setResultFlag, State.getV_setV]

theorem setLogicResult_eq (s : State) (x : Reg) (r : Byte) :
    setLogicResult s x r = { s with v := (setLogicResult s x r).v } := by
  unfold setLogicResult
  split <;> rfl

theorem getV_setLogicResult (s : State) (x k : Reg) (r : Byte) :
    (setLogicResult s x r).getV k =
      if s.cfg.vfResetQuirk = true ∧ k = vf then 0 else if k = x then r else s.getV k := by
  unfold setLogicResult
  by_cases h : s.cfg.vfResetQuirk = true
  · simp [h, getV_setResultFlag]
  · simp [h, State.getV_setV]

theorem toNat_flagByte (b : Bool) : (flagByte b).toNat = if b then 1 else 0 := by
  cases b <;> rfl

/-! ### Register dump and load (R90, R91) -/

theorem getElem_loadRegs (bs : List Byte) (v : Vector Byte 16) (k : Nat) (r : Fin 16) :
    (loadRegs v k bs)[r.val] = if k ≤ r.val then bs.getD (r.val - k) v[r.val] else v[r.val] := by
  induction bs generalizing v k with
  | nil => simp [loadRegs]
  | cons b bs ih =>
    rw [loadRegs, ih]
    simp only [Vector.getElem_setIfInBounds]
    rcases Nat.lt_trichotomy r.val k with h | h | h
    · have h1 : ¬ k + 1 ≤ r.val := by omega
      have h2 : ¬ k ≤ r.val := by omega
      have h3 : k ≠ r.val := by omega
      simp [h1, h2, h3]
    · subst h
      simp
    · have h1 : k + 1 ≤ r.val := by omega
      have h2 : k ≤ r.val := by omega
      have h3 : k ≠ r.val := by omega
      have h4 : r.val - k = (r.val - (k + 1)) + 1 := by omega
      simp [h1, h2, h3, h4]

theorem getV_loadV (s : State) (bs : List Byte) (r : Reg) : (s.loadV bs).getV r = bs.getD r.val (s.getV r) := by
  have := getElem_loadRegs bs s.v 0 r
  simpa [State.getV, State.loadV] using this

theorem length_dumpBytes (s : State) (x : Reg) : (dumpBytes s x).length = x.val + 1 := by
  have := x.isLt
  simp [dumpBytes]

theorem getElem?_dumpBytes (s : State) (x r : Reg) :
    (dumpBytes s x)[r.val]? = if r ≤ x then some (s.getV r) else none := by
  have := r.isLt
  simp only [dumpBytes, List.getElem?_take, State.getV, Fin.le_def]
  by_cases h : r.val ≤ x.val
  · have h' : r.val < x.val + 1 := by omega
    simp [h, h']
  · have h' : ¬ r.val < x.val + 1 := by omega
    simp [h, h']

/-! ### Keys (R97, R98, R100) -/

theorem keyIndex_ok {b : Byte} {k : Fin 16} : keyIndex b = .ok k ↔ b.toNat = k.val := by
  unfold keyIndex
  split
  · simp [Fin.ext_iff]
  · next h =>
    have := k.isLt
    simp only [reduceCtorEq, false_iff]
    intro e
    exact h (by show b.toNat < 16; omega)

theorem keyIndex_error {b : Byte} {e : Fault} : keyIndex b = .error e ↔ e = .invalidKeyIndex ∧ 15 < b.toNat := by
  unfold keyIndex
  split
  · next h =>
    have : b.toNat < 16 := h
    simp only [reduceCtorEq, false_iff]
    omega
  · next h =>
    have : ¬ b.toNat < 16 := h
    simp only [Except.error.injEq]
    constructor
    · rintro rfl
      exact ⟨rfl, by omega⟩
    · rintro ⟨rfl, _⟩
      rfl

theorem lowestPressed_none {s : State} : lowestPressed s = none ↔ ∀ k, s.pressed k = false := by
  simp [lowestPressed]

theorem lowestPressed_some {s : State} {k : Reg} :
    lowestPressed s = some k ↔ s.pressed k = true ∧ ∀ j, j < k → s.pressed j = false := by
  unfold lowestPressed
  rw [List.find?_eq_some_iff_getElem]
  constructor
  · rintro ⟨hk, i, hi, he, hj⟩
    refine ⟨hk, fun j hjk => ?_⟩
    have e : i = k.val := by simpa using congrArg Fin.val he
    have := hj j.val (by rw [e]; exact hjk)
    simpa using this
  · rintro ⟨hk, hj⟩
    refine ⟨hk, k.val, by simp, by simp, fun j hlt => ?_⟩
    have := hj ⟨j, by omega⟩ hlt
    simpa using this

/-! ### Timers (R103) -/

theorem toNat_decrement (b : Byte) : (decrement b).toNat = b.toNat - 1 := by
  unfold decrement
  split
  · next h => rw [BitVec.toNat_sub]; have := b.isLt; simp; omega
  · omega

end Sys2Proof.Machine
end

