-- ==== Sys2Proof/Laws/Draw.lean ====
section
/-! SUPPORT. What drawing does (R93, R95): every pixel is XORed with the sprite's pixel there, and the collision flag
says whether a set pixel met a set sprite pixel. -/

namespace Sys2Proof.Machine

theorem Framebuffer.pixel_blank (x : Fin 64) (y : Fin 32) : Framebuffer.blank.pixel x y = false := by
  simp [Framebuffer.blank, Framebuffer.pixel]

theorem Framebuffer.ext_pixel {f g : Framebuffer} (h : ∀ x y, f.pixel x y = g.pixel x y) : f = g := by
  apply Vector.ext
  intro x hx
  apply Vector.ext
  intro y hy
  exact h ⟨x, hx⟩ ⟨y, hy⟩

theorem Framebuffer.pixel_flip (fb : Framebuffer) (x px : Fin 64) (y py : Fin 32) :
    (fb.flip x y).pixel px py = (fb.pixel px py ^^ (decide (px = x) && decide (py = y))) := by
  simp only [Framebuffer.flip, Framebuffer.pixel, Vector.getElem_set]
  by_cases hx : px = x
  · subst hx
    by_cases hy : py = y
    · subst hy
      simp
    · have : y.val ≠ py.val := fun h => hy (Fin.ext h.symm)
      simp [this, hy]
  · have : x.val ≠ px.val := fun h => hx (Fin.ext h.symm)
    simp [this, hx]

/-- From `d` to `d'` the pixels of `on` have been drawn. -/
def Draws (d d' : Framebuffer × Bool) (on : Fin 64 → Fin 32 → Bool) : Prop :=
  (∀ x y, d'.1.pixel x y = (d.1.pixel x y ^^ on x y)) ∧
  (d'.2 = true ↔ d.2 = true ∨ ∃ x y, on x y = true ∧ d.1.pixel x y = true)

/-- Two drawings of different pixels, one after the other, are one drawing. -/
theorem Draws.trans {d e f : Framebuffer × Bool} {p q : Fin 64 → Fin 32 → Bool} (h1 : Draws d e p)
    (h2 : Draws e f q) (hd : ∀ x y, p x y = true → q x y = false) : Draws d f (fun x y => p x y || q x y) := by
  refine ⟨fun x y => ?_, ?_⟩
  · rw [h2.1, h1.1]
    have := hd x y
    cases hp : p x y <;> cases hq : q x y <;> simp_all
  · rw [h2.2, h1.2]
    constructor
    · rintro ((h | ⟨x, y, hp, hb⟩) | ⟨x, y, hq, hb⟩)
      · exact .inl h
      · exact .inr ⟨x, y, by simp [hp], hb⟩
      · refine .inr ⟨x, y, by simp [hq], ?_⟩
        rw [h1.1] at hb
        cases hp : p x y
        · simpa [hp] using hb
        · simp [hd x y hp] at hq
    · rintro (h | ⟨x, y, ho, hb⟩)
      · exact .inl (.inl h)
      · cases hp : p x y
        · exact .inr ⟨x, y, by simpa [hp] using ho, by rw [h1.1, hp, hb]; rfl⟩
        · exact .inl (.inr ⟨x, y, hp, hb⟩)

theorem Draws.refl (d : Framebuffer × Bool) : Draws d d (fun _ _ => false) := by
  simp [Draws]

theorem drawPixel_draws (x y : Nat) (on : Bool) (d : Framebuffer × Bool) :
    Draws d (drawPixel x y on d) (fun px py => on && (decide (px.val = x) && decide (py.val = y))) := by
  unfold drawPixel
  split
  · next h =>
    cases on
    · exact Draws.refl d
    · refine ⟨fun px py => ?_, ?_⟩
      · simp [Framebuffer.pixel_flip, Fin.ext_iff]
      · simp only [if_true, Bool.or_eq_true, Bool.true_and, Bool.and_eq_true, decide_eq_true_eq]
        refine or_congr_right ⟨fun hb => ⟨_, _, ⟨rfl, rfl⟩, hb⟩, ?_⟩
        rintro ⟨px, py, ⟨rfl, rfl⟩, hb⟩
        exact hb
  · next h =>
    have e : (fun (px : Fin 64) (py : Fin 32) => on && (decide (px.val = x) && decide (py.val = y)))
        = fun _ _ => false := by
      funext px py
      have hx := px.isLt
      have hy := py.isLt
      by_cases hpx : px.val = x
      · by_cases hpy : py.val = y
        · exact absurd ⟨hpx ▸ hx, hpy ▸ hy⟩ h
        · simp [hpy]
      · simp [hpx]
    rw [e]
    exact Draws.refl d

theorem drawCols_draws (x0 y : Nat) (row : Byte) (cs : List Nat) (hn : cs.Nodup) (d : Framebuffer × Bool) :
    Draws d (cs.foldl (fun d c => drawPixel (x0 + c) y (row.getLsbD (7 - c)) d) d)
      (fun px py => cs.any fun c => row.getLsbD (7 - c) && (decide (px.val = x0 + c) && decide (py.val = y))) := by
  induction cs generalizing d with
  | nil => exact Draws.refl d
  | cons c cs ih =>
    obtain ⟨hc, hn⟩ := List.nodup_cons.1 hn
    refine (drawPixel_draws (x0 + c) y _ d).trans (ih hn _) fun px py hp => ?_
    simp only [Bool.and_eq_true, decide_eq_true_eq] at hp
    rw [List.any_eq_false]
    intro c' hc' hp'
    simp only [Bool.and_eq_true, decide_eq_true_eq] at hp'
    have : c = c' := by omega
    exact hc (this ▸ hc')

/-- The pixels one sprite row sets, drawn on framebuffer row `y` from column `x0` (R93). -/
def rowPixel (x0 y : Nat) (row : Byte) (px : Fin 64) (py : Fin 32) : Bool :=
  decide (py.val = y ∧ x0 ≤ px.val ∧ px.val < x0 + 8) && row.getLsbD (7 - (px.val - x0))

theorem drawRow_draws (x0 y : Nat) (row : Byte) (d : Framebuffer × Bool) :
    Draws d (drawRow x0 y row d) (rowPixel x0 y row) := by
  have h := drawCols_draws x0 y row (List.range 8) List.nodup_range d
  have e : rowPixel x0 y row = (fun px py => (List.range 8).any fun c =>
      row.getLsbD (7 - c) && (decide (px.val = x0 + c) && decide (py.val = y))) := by
    funext px py
    rw [Bool.eq_iff_iff, List.any_eq_true]
    simp only [rowPixel, Bool.and_eq_true, decide_eq_true_eq, List.mem_range]
    constructor
    · rintro ⟨⟨hy, h1, h2⟩, hb⟩
      exact ⟨px.val - x0, by omega, hb, by omega, hy⟩
    · rintro ⟨c, hc, hb, hx, hy⟩
      have : px.val - x0 = c := by omega
      exact ⟨⟨hy, by omega, by omega⟩, this ▸ hb⟩
  rw [e]
  exact h

/-- The pixels a sprite sets, drawn from column `x0`, row `y` (R93): row `r` of `rows` lands on row `y + r`. -/
def spritePixels (x0 y : Nat) (rows : List Byte) (px : Fin 64) (py : Fin 32) : Bool :=
  decide (y ≤ py.val ∧ py.val < y + rows.length ∧ x0 ≤ px.val ∧ px.val < x0 + 8) &&
    (rows.getD (py.val - y) 0).getLsbD (7 - (px.val - x0))

theorem spritePixels_cons (x0 y : Nat) (row : Byte) (rows : List Byte) :
    spritePixels x0 y (row :: rows) = fun px py => rowPixel x0 y row px py || spritePixels x0 (y + 1) rows px py := by
  funext px py
  rcases Nat.lt_trichotomy py.val y with h | h | h
  · have h1 : ¬ y ≤ py.val := by omega
    have h2 : ¬ y + 1 ≤ py.val := by omega
    have h3 : ¬ py.val = y := by omega
    simp [spritePixels, rowPixel, h1, h2, h3]
  · have h2 : ¬ y + 1 ≤ py.val := by omega
    simp [spritePixels, rowPixel, h]
  · have h3 : ¬ py.val = y := by omega
    have h4 : py.val - y = (py.val - (y + 1)) + 1 := by omega
    have h5 : (y ≤ py.val ∧ py.val < y + (rows.length + 1)) ↔ (y + 1 ≤ py.val ∧ py.val < y + 1 + rows.length) := by
      omega
    simp only [spritePixels, rowPixel, h3, false_and, decide_false, Bool.false_and, Bool.false_or, h4,
      List.getD_cons_succ, List.length_cons, ← and_assoc, h5]

theorem drawRows_draws (x0 y : Nat) (rows : List Byte) (d : Framebuffer × Bool) :
    Draws d (drawRows x0 y rows d) (spritePixels x0 y rows) := by
  induction rows generalizing y d with
  | nil =>
    have e : spritePixels x0 y [] = fun _ _ => false := by
      funext px py
      simp only [spritePixels, List.length_nil, Bool.and_eq_false_iff, decide_eq_false_iff_not]
      left
      omega
    rw [e]
    exact Draws.refl d
  | cons row rows ih =>
    rw [spritePixels_cons]
    refine (drawRow_draws x0 y row d).trans (ih (y + 1) _) fun px py hp => ?_
    simp only [rowPixel, Bool.and_eq_true, decide_eq_true_eq] at hp
    have : ¬ y + 1 ≤ py.val := by omega
    simp [spritePixels, this]

/-- The whole of `draw` (R95, R96). -/
theorem Framebuffer.draw_draws (fb : Framebuffer) (x0 y0 : Nat) (rows : List Byte) :
    (∀ x y, (fb.draw x0 y0 rows).1.pixel x y = (fb.pixel x y ^^ spritePixels x0 y0 rows x y)) ∧
    ((fb.draw x0 y0 rows).2 = true ↔ ∃ x y, spritePixels x0 y0 rows x y = true ∧ fb.pixel x y = true) := by
  have h := drawRows_draws x0 y0 rows (fb, false)
  exact ⟨h.1, by simpa [Framebuffer.draw] using h.2⟩

end Sys2Proof.Machine
end

