-- ==== Sys2Proof/Laws/PerInstr.lean ====
section
/-! SUPPORT. Per-instruction laws: every instruction's word has the fixed bits of its row of the opcode table. -/

namespace Sys2Proof.Laws.EncodingRow

/-- The instruction's row is one of the table's, and its encoding is a word of that row (R55, R59). -/
def Statement (i : Instr) : Prop := opcodeRow i ∈ opcodeRows ∧ (opcodeRow i).Matches (encode i)

/-- The fixed bits of a word with a 12-bit operand. -/
theorem wordNNN_and (op : BitVec 4) (nnn : Addr) : wordNNN op nnn &&& 0xF000#16 = op ++ 0#12 := by
  have e : (0xF000#16) = (0xF#4 ++ 0#12 : BitVec 16) := rfl
  rw [wordNNN, e, BitVec.and_append, BitVec.and_zero]
  congr 1
  exact BitVec.and_allOnes

/-- The fixed bits of a word with a register and a byte operand. -/
theorem wordXNN_and (op : BitVec 4) (x : Reg) (nn : Byte) : wordXNN op x nn &&& 0xF000#16 = op ++ 0#12 := by
  have e : (0xF000#16) = ((0xF#4 ++ 0#4 : BitVec 8) ++ 0#8 : BitVec 16) := rfl
  have z : (op ++ 0#12 : BitVec 16) = ((op ++ 0#4 : BitVec 8) ++ 0#8 : BitVec 16) := by
    revert op
    decide
  rw [wordXNN, e, z, BitVec.and_append, BitVec.and_append, BitVec.and_zero, BitVec.and_zero]
  congr 2
  exact BitVec.and_allOnes

/-- The fixed bits of a word with a register operand and a fixed byte. -/
theorem wordXkk_and (op : BitVec 4) (x : Reg) (kk : Byte) :
    wordXNN op x kk &&& 0xF0FF#16 = (op ++ 0#4 : BitVec 8) ++ kk := by
  have e : (0xF0FF#16) = ((0xF#4 ++ 0#4 : BitVec 8) ++ 0xFF#8 : BitVec 16) := rfl
  rw [wordXNN, e, BitVec.and_append, BitVec.and_append, BitVec.and_zero]
  congr 2
  · exact BitVec.and_allOnes
  · exact BitVec.and_allOnes

/-- The fixed bits of a word with two register operands and a fixed nibble. -/
theorem wordXYn_and (op n : BitVec 4) (x y : Reg) :
    wordXYN op x y n &&& 0xF00F#16 = ((op ++ 0#4 : BitVec 8) ++ 0#4 : BitVec 12) ++ n := by
  have e : (0xF00F#16) = (((0xF#4 ++ 0#4 : BitVec 8) ++ 0#4 : BitVec 12) ++ 0xF#4 : BitVec 16) := rfl
  rw [wordXYN, e, BitVec.and_append, BitVec.and_append, BitVec.and_append, BitVec.and_zero, BitVec.and_zero]
  congr 3
  · exact BitVec.and_allOnes
  · exact BitVec.and_allOnes

/-- The fixed bits of DXYN. -/
theorem wordXYN_and (op n : BitVec 4) (x y : Reg) : wordXYN op x y n &&& 0xF000#16 = op ++ 0#12 := by
  have e : (0xF000#16) = (((0xF#4 ++ 0#4 : BitVec 8) ++ 0#4 : BitVec 12) ++ 0#4 : BitVec 16) := rfl
  have z : (op ++ 0#12 : BitVec 16) = (((op ++ 0#4 : BitVec 8) ++ 0#4 : BitVec 12) ++ 0#4 : BitVec 16) := by
    revert op
    decide
  rw [wordXYN, e, z, BitVec.and_append, BitVec.and_append, BitVec.and_append, BitVec.and_zero, BitVec.and_zero,
    BitVec.and_zero]
  congr 3
  exact BitVec.and_allOnes

theorem cls : Statement .cls := ⟨by simp [opcodeRow, opcodeRows], rfl⟩
theorem ret : Statement .ret := ⟨by simp [opcodeRow, opcodeRows], rfl⟩
theorem jp (nnn : Addr) : Statement (.jp nnn) := ⟨by simp [opcodeRow, opcodeRows], wordNNN_and _ _⟩
theorem call (nnn : Addr) : Statement (.call nnn) := ⟨by simp [opcodeRow, opcodeRows], wordNNN_and _ _⟩
theorem seImm (x : Reg) (nn : Byte) : Statement (.seImm x nn) := ⟨by simp [opcodeRow, opcodeRows], wordXNN_and _ _ _⟩
theorem sneImm (x : Reg) (nn : Byte) : Statement (.sneImm x nn) := ⟨by simp [opcodeRow, opcodeRows], wordXNN_and _ _ _⟩
theorem seReg (x y : Reg) : Statement (.seReg x y) := ⟨by simp [opcodeRow, opcodeRows], wordXYn_and _ _ _ _⟩
theorem ldImm (x : Reg) (nn : Byte) : Statement (.ldImm x nn) := ⟨by simp [opcodeRow, opcodeRows], wordXNN_and _ _ _⟩
theorem addImm (x : Reg) (nn : Byte) : Statement (.addImm x nn) := ⟨by simp [opcodeRow, opcodeRows], wordXNN_and _ _ _⟩
theorem ldReg (x y : Reg) : Statement (.ldReg x y) := ⟨by simp [opcodeRow, opcodeRows], wordXYn_and _ _ _ _⟩
theorem orReg (x y : Reg) : Statement (.orReg x y) := ⟨by simp [opcodeRow, opcodeRows], wordXYn_and _ _ _ _⟩
theorem andReg (x y : Reg) : Statement (.andReg x y) := ⟨by simp [opcodeRow, opcodeRows], wordXYn_and _ _ _ _⟩
theorem xorReg (x y : Reg) : Statement (.xorReg x y) := ⟨by simp [opcodeRow, opcodeRows], wordXYn_and _ _ _ _⟩
theorem addReg (x y : Reg) : Statement (.addReg x y) := ⟨by simp [opcodeRow, opcodeRows], wordXYn_and _ _ _ _⟩
theorem sub (x y : Reg) : Statement (.sub x y) := ⟨by simp [opcodeRow, opcodeRows], wordXYn_and _ _ _ _⟩
theorem shr (x y : Reg) : Statement (.shr x y) := ⟨by simp [opcodeRow, opcodeRows], wordXYn_and _ _ _ _⟩
theorem subn (x y : Reg) : Statement (.subn x y) := ⟨by simp [opcodeRow, opcodeRows], wordXYn_and _ _ _ _⟩
theorem shl (x y : Reg) : Statement (.shl x y) := ⟨by simp [opcodeRow, opcodeRows], wordXYn_and _ _ _ _⟩
theorem sneReg (x y : Reg) : Statement (.sneReg x y) := ⟨by simp [opcodeRow, opcodeRows], wordXYn_and _ _ _ _⟩
theorem ldI (nnn : Addr) : Statement (.ldI nnn) := ⟨by simp [opcodeRow, opcodeRows], wordNNN_and _ _⟩
theorem jpV0 (x : Reg) (nnn : Addr) : Statement (.jpV0 x nnn) := ⟨by simp [opcodeRow, opcodeRows], wordNNN_and _ _⟩
theorem rnd (x : Reg) (nn : Byte) : Statement (.rnd x nn) := ⟨by simp [opcodeRow, opcodeRows], wordXNN_and _ _ _⟩
theorem drw (x y : Reg) (n : Fin 16) : Statement (.drw x y n) := ⟨by simp [opcodeRow, opcodeRows], wordXYN_and _ _ _ _⟩
theorem skp (x : Reg) : Statement (.skp x) := ⟨by simp [opcodeRow, opcodeRows], wordXkk_and _ _ _⟩
theorem sknp (x : Reg) : Statement (.sknp x) := ⟨by simp [opcodeRow, opcodeRows], wordXkk_and _ _ _⟩
theorem ldVxDt (x : Reg) : Statement (.ldVxDt x) := ⟨by simp [opcodeRow, opcodeRows], wordXkk_and _ _ _⟩
theorem ldVxK (x : Reg) : Statement (.ldVxK x) := ⟨by simp [opcodeRow, opcodeRows], wordXkk_and _ _ _⟩
theorem ldDtVx (x : Reg) : Statement (.ldDtVx x) := ⟨by simp [opcodeRow, opcodeRows], wordXkk_and _ _ _⟩
theorem ldStVx (x : Reg) : Statement (.ldStVx x) := ⟨by simp [opcodeRow, opcodeRows], wordXkk_and _ _ _⟩
theorem addI (x : Reg) : Statement (.addI x) := ⟨by simp [opcodeRow, opcodeRows], wordXkk_and _ _ _⟩
theorem ldF (x : Reg) : Statement (.ldF x) := ⟨by simp [opcodeRow, opcodeRows], wordXkk_and _ _ _⟩
theorem ldB (x : Reg) : Statement (.ldB x) := ⟨by simp [opcodeRow, opcodeRows], wordXkk_and _ _ _⟩
theorem ldMemStore (x : Reg) : Statement (.ldMemStore x) := ⟨by simp [opcodeRow, opcodeRows], wordXkk_and _ _ _⟩
theorem ldMemLoad (x : Reg) : Statement (.ldMemLoad x) := ⟨by simp [opcodeRow, opcodeRows], wordXkk_and _ _ _⟩

end Sys2Proof.Laws.EncodingRow
end

