-- ==== Sys2Proof/Laws/Step.lean ====
section
/-! SUPPORT. Everything a step and a host operation can do, said once (R63, R107, R113). -/

namespace Sys2Proof.Machine

/-- A step that succeeds fetched and decoded an instruction, and is that instruction's execution. -/
theorem step_next {s t : State} : step s = .next t ↔
    ∃ w i, fetch s = .ok w ∧ decode w = .ok i ∧ exec i (advancePc s) = .next t := by
  unfold step
  rw [attempt_next]
  refine exists_congr fun w => ?_
  cases hd : decode w <;> simp [raise]

/-- A step that fails failed at its fetch, at its decode, or in its instruction (R107). -/
theorem step_fault {s : State} {e : Fault} : step s = .fault e ↔
    fetch s = .error e ∨
    (∃ w g, fetch s = .ok w ∧ decode w = .error g ∧ e = .invalidOpcode) ∨
    (∃ w i, fetch s = .ok w ∧ decode w = .ok i ∧ exec i (advancePc s) = .fault e) := by
  unfold step
  rw [attempt_fault]
  refine or_congr_right ?_
  constructor
  · rintro ⟨w, hw, h⟩
    cases hd : decode w with
    | error g =>
      simp only [hd, raise, decodeFault_eq, Host.Outcome.fault.injEq] at h
      exact .inl ⟨w, g, hw, hd, h.symm⟩
    | ok i => exact .inr ⟨w, i, hw, hd, by simpa only [hd] using h⟩
  · rintro (⟨w, g, hw, hd, rfl⟩ | ⟨w, i, hw, hd, h⟩)
    · exact ⟨w, hw, by simp [hd, raise]⟩
    · exact ⟨w, hw, by simpa only [hd] using h⟩

/-- A program is placed where the next step fetches it. -/
theorem fetch_withFetchWord {s : State} (nbits w : Nat) (h : s.pc.toNat ≤ 0xFFE) :
    fetch (s.withFetchWord nbits w) = .ok (tableWord nbits w) := fetch_placeWord _ h

/-- What the host is left with and told after a call (R106). -/
theorem settle_cases (s : State) (a : Answer) :
    (∃ t, a = .next t ∧ settle s a = (t, .ok)) ∨ (∃ k, a = .fault k ∧ settle s a = (s, .err k)) ∨
    (∃ r, a = .refused r ∧ settle s a = (s, .refused r)) := by
  cases a with
  | next t => exact .inl ⟨t, rfl, rfl⟩
  | fault k => exact .inr (.inl ⟨k, rfl, rfl⟩)
  | refused r => exact .inr (.inr ⟨r, rfl, rfl⟩)

/-- A `load` that succeeds changed memory alone, at the ROM's bytes alone, in canonical form (R49). -/
theorem hostLoad_next {rom : List Byte} {s t : State} (h : hostLoad rom s = .next t) :
    0x200 + rom.length ≤ 4096 ∧ t = { s with mem := t.mem } ∧
    (∀ b, t.peek b = if 0x200 ≤ b then rom.getD (b - 0x200) (s.peek b) else s.peek b) ∧
    (s.mem.wf s.cfg → t.mem.wf t.cfg) := by
  unfold hostLoad at h
  split at h
  · cases h
  · next hn =>
    cases h
    have hn' : ¬ 0x200 + rom.length > 4096 := hn
    refine ⟨by omega, rfl, fun b => Memory.get_setBytes _ _ _ _ _, fun hw => Memory.wf_setBytes hw fun k hk => ?_⟩
    show 0x200 + k < 4096
    omega

end Sys2Proof.Machine
end

