-- ==== Sys2Proof/Tests/Slice0.lean ====
section
/-! SUPPORT. The model's own tests. Expected results are the spec's vectors (95_test_vectors.md, named in each
comment) or the examples of the numbered rules; each runs one step. Then the witnesses of the statements. -/

namespace Sys2Proof.Tests

open Sys2Proof.Machine Sys2Proof.Statements

/-- `s` with the word `w` at its PC. -/
def withWord (s : State) (w : Word) : State := placeWord s w

/-- The reset state with the word `w` at 0x200 and `V[x] = a`, `V[y] = b`. -/
def regs (w : Word) (x : Reg) (a : Byte) (y : Reg) (b : Byte) : State := withWord ((State.reset.setV x a).setV y b) w

/-- The reset state with parameters `c`. -/
def under (c : Config) : State := State.resetWith c 0

/-- The step succeeds and the next state passes `p`. -/
def okWith (s : State) (p : State → Bool) : Bool :=
  match step s with
  | .next t => p t
  | .fault _ => false
  | .refused _ => false

/-- The step is the error `k`. -/
def errWith (s : State) (k : Fault) : Bool :=
  match step s with
  | .next _ => false
  | .fault e => decide (e = k)
  | .refused _ => false

/-- The state with the byte `b` at `a`. -/
def withByte (s : State) (a : Nat) (b : Byte) : State := s.setMem (s.mem.set s.cfg a b)

/-- The state with call-stack depth 1 and `w` on it. -/
def oneFrame (w : Word) : State := { State.reset with sp := 1, stack := State.reset.stack.set 0 w }

/-! ### Well-formedness: the one check refuses its ill-formed term (R54, R71) -/

theorem test_wellFormed_refuses : wellFormed (.jpV0 3 0x220) = false := by decide
theorem test_wellFormed_accepts : wellFormed (.jpV0 2 0x220) = true := by decide

/-! ### Decoding: every constructor, its word written out bit by bit from R51 and R55 -/

theorem test_decode_family0 : decode 0b0000000011100000#16 = .ok .cls ∧ decode 0b0000000011101110#16 = .ok .ret := by
  decide
theorem test_decode_jumps : decode 0b0001001000001000#16 = .ok (.jp 0x208) ∧
    decode 0b0010001000010000#16 = .ok (.call 0x210) ∧ decode 0b1011001000100000#16 = .ok (.jpV0 2 0x220) := by
  decide
theorem test_decode_skips : decode 0b0011001100000101#16 = .ok (.seImm 3 5) ∧
    decode 0b0100001100000110#16 = .ok (.sneImm 3 6) ∧ decode 0b0101000100100000#16 = .ok (.seReg 1 2) ∧
    decode 0b1001000100100000#16 = .ok (.sneReg 1 2) := by decide
theorem test_decode_immediates : decode 0b0110000000001010#16 = .ok (.ldImm 0 0x0A) ∧
    decode 0b0111111111111111#16 = .ok (.addImm 15 0xFF) ∧ decode 0b1010001100000000#16 = .ok (.ldI 0x300) ∧
    decode 0b1100001100001111#16 = .ok (.rnd 3 0x0F) := by decide
theorem test_decode_family8_low : decode 0b1000000100100000#16 = .ok (.ldReg 1 2) ∧
    decode 0b1000000100100001#16 = .ok (.orReg 1 2) ∧ decode 0b1000000100100010#16 = .ok (.andReg 1 2) ∧
    decode 0b1000000100100011#16 = .ok (.xorReg 1 2) ∧ decode 0b1000000100100100#16 = .ok (.addReg 1 2) := by decide
theorem test_decode_family8_high : decode 0b1000000100100101#16 = .ok (.sub 1 2) ∧
    decode 0b1000000100100110#16 = .ok (.shr 1 2) ∧ decode 0b1000000100100111#16 = .ok (.subn 1 2) ∧
    decode 0b1000000100101110#16 = .ok (.shl 1 2) := by decide
theorem test_decode_draw : decode 0b1101000100100101#16 = .ok (.drw 1 2 5) := by decide
theorem test_decode_familyE : decode 0b1110010110011110#16 = .ok (.skp 5) ∧
    decode 0b1110010110100001#16 = .ok (.sknp 5) := by decide
theorem test_decode_familyF_timers : decode 0b1111001100000111#16 = .ok (.ldVxDt 3) ∧
    decode 0b1111001100001010#16 = .ok (.ldVxK 3) ∧ decode 0b1111001100010101#16 = .ok (.ldDtVx 3) ∧
    decode 0b1111010000011000#16 = .ok (.ldStVx 4) := by decide
theorem test_decode_familyF_index : decode 0b1111001000011110#16 = .ok (.addI 2) ∧
    decode 0b1111000000101001#16 = .ok (.ldF 0) ∧ decode 0b1111101000110011#16 = .ok (.ldB 10) ∧
    decode 0b1111000101010101#16 = .ok (.ldMemStore 1) ∧ decode 0b1111001001100101#16 = .ok (.ldMemLoad 2) := by decide
/-- FD4 to FD10: words of no row, rejected by the name of their row in R56. -/
theorem test_decode_rejects : decode 0x0000#16 = .error .sys ∧ decode 0x0123#16 = .error .sys ∧
    decode 0x5121#16 = .error .family5 ∧ decode 0x8008#16 = .error .family8 ∧ decode 0x800F#16 = .error .family8 ∧
    decode 0x9001#16 = .error .family9 ∧ decode 0xE09F#16 = .error .familyE ∧ decode 0xF0FF#16 = .error .familyF := by
  decide
/-- The host's numbering: the table's word, laid out most significant byte first. -/
theorem test_decodeTableWord : decodeTableWord 16 0xD125 = some (.drw 1 2 5) ∧ decodeTableWord 16 0x00E0 = some .cls ∧
    decodeTableWord 16 0 = none := by decide
theorem test_withFetchWord : okWith (State.reset.withFetchWord 16 0x630A) (fun t => t.getV 3 == 0x0A) = true := by decide

/-! ### Fetch (FD1, FD2, FD3, FD4, FD11) -/

theorem test_fetch_top : okWith (withWord (State.reset.setPc 0xFFE) 0x6001) (fun t => t.getV 0 == 1 && t.pc == 0x1000)
    = true := by decide
theorem test_fetch_outside : errWith (State.reset.setPc 0x1000) .memoryOutOfBounds = true ∧
    errWith (State.reset.setPc 0xFFF) .memoryOutOfBounds = true := by decide
theorem test_fetch_empty : errWith State.reset .invalidOpcode = true := by decide
theorem test_fetch_odd : okWith (withWord (State.reset.setPc 0x201) 0x6042) (fun t => t.getV 0 == 0x42 && t.pc == 0x203)
    = true := by decide

/-! ### Control flow (CF1 to CF15) -/

theorem test_ret : okWith (withWord ((oneFrame 0x206).setPc 0x212) 0x00EE) (fun t => t.pc == 0x206 && t.sp == 0)
    = true := by decide
theorem test_ret_empty : errWith (withWord State.reset 0x00EE) .stackUnderflow = true := by decide
theorem test_jp_odd : okWith (withWord State.reset 0x1201) (fun t => t.pc == 0x201) = true := by decide
theorem test_call_top : okWith (withWord (State.reset.setPc 0xFFE) 0x2300)
    (fun t => t.sp == 1 && t.stack[0] == 0x1000 && t.pc == 0x300) = true := by decide
theorem test_call_full : errWith (withWord { State.reset with sp := 16 } 0x2300) .stackOverflow = true := by decide
theorem test_seImm : okWith (withWord ((State.reset.setV 3 5).setPc 0x206) 0x3305) (fun t => t.pc == 0x20A) = true := by
  decide
theorem test_seImm_not : okWith (withWord ((State.reset.setV 3 5).setPc 0x206) 0x3306) (fun t => t.pc == 0x208)
    = true := by decide
theorem test_sneImm : okWith (withWord ((State.reset.setV 3 5).setPc 0x206) 0x4306) (fun t => t.pc == 0x20A) = true := by
  decide
theorem test_sneImm_not : okWith (withWord ((State.reset.setV 3 5).setPc 0x206) 0x4305) (fun t => t.pc == 0x208)
    = true := by decide
theorem test_seReg : okWith (regs 0x5120 1 0x7F 2 0x7F) (fun t => t.pc == 0x204) = true := by decide
theorem test_sneReg : okWith (regs 0x9120 1 1 2 2) (fun t => t.pc == 0x204) = true := by decide
theorem test_jpV0 : okWith (regs 0xB220 0 5 2 0x10) (fun t => t.pc == 0x225) = true := by decide
theorem test_jpV0_quirk : okWith (withWord (((under { defaultConfig with jumpQuirk := .useVX }).setV 0 5).setV 2 0x10)
    0xB220) (fun t => t.pc == 0x230) = true := by decide

/-! ### ALU (AL1 to AL27) -/

theorem test_ldImm : okWith (withWord State.reset 0x600A) (fun t => t.getV 0 == 0x0A && t.pc == 0x202) = true := by decide
theorem test_addImm_noFlag : okWith (regs 0x7102 1 0xFF 15 7) (fun t => t.getV 1 == 1 && t.getV 15 == 7) = true := by
  decide
theorem test_addImm_vf : okWith (regs 0x7FFF 0 0 15 5) (fun t => t.getV 15 == 4) = true := by decide
theorem test_ldReg : okWith (regs 0x8120 2 0x33 1 0) (fun t => t.getV 1 == 0x33) = true := by decide
theorem test_or_vf : okWith (regs 0x8F11 15 0x0F 1 0xF0) (fun t => t.getV 15 == 0) = true := by decide
theorem test_or_quirkOff : okWith (withWord (((under { defaultConfig with vfResetQuirk := false }).setV 15 0x0F).setV 1
    0xF0) 0x8F11) (fun t => t.getV 15 == 0xFF) = true := by decide
theorem test_and : okWith (withWord (((State.reset.setV 0 0x3C).setV 1 0x0F).setV 15 1) 0x8012)
    (fun t => t.getV 0 == 0x0C && t.getV 15 == 0) = true := by decide
theorem test_xor : okWith (regs 0x8013 0 0xFF 1 0x0F) (fun t => t.getV 0 == 0xF0 && t.getV 15 == 0) = true := by decide
theorem test_addReg_carry : okWith (regs 0x8F14 15 0xFF 1 2) (fun t => t.getV 15 == 1) = true := by decide
theorem test_addReg_noCarry : okWith (regs 0x8014 0 0x7F 1 0x80) (fun t => t.getV 0 == 0xFF && t.getV 15 == 0) = true := by
  decide
theorem test_sub_borrow : okWith (regs 0x8015 0 3 1 5) (fun t => t.getV 0 == 0xFE && t.getV 15 == 0) = true := by decide
theorem test_sub_equal : okWith (regs 0x8015 0 7 1 7) (fun t => t.getV 0 == 0 && t.getV 15 == 1) = true := by decide
theorem test_shr_vf : okWith (regs 0x8F16 0 0 1 2) (fun t => t.getV 15 == 0) = true := by decide
theorem test_shr_quirk : okWith (withWord (((under { defaultConfig with shiftQuirk := .useVX }).setV 0 5).setV 1 0xFF)
    0x8016) (fun t => t.getV 0 == 2 && t.getV 15 == 1 && t.getV 1 == 0xFF) = true := by decide
theorem test_subn : okWith (regs 0x8017 0 3 1 5) (fun t => t.getV 0 == 2 && t.getV 15 == 1) = true := by decide
theorem test_subn_borrow : okWith (regs 0x8017 0 5 1 3) (fun t => t.getV 0 == 0xFE && t.getV 15 == 0) = true := by decide
theorem test_shl : okWith (regs 0x801E 0 0 1 0x81) (fun t => t.getV 0 == 2 && t.getV 15 == 1) = true := by decide
/-- AL26: the mask 0 gives 0 whatever the draw is; the draw has been counted. -/
theorem test_rnd_zeroMask : ∀ r : Byte, r &&& 0#8 = 0 := by decide
theorem test_rnd_counts : okWith (withWord State.reset 0xC000) (fun t => t.draws == 1 && t.pc == 0x202) = true := by decide

/-! ### Index register and memory (IM1 to IM19) -/

theorem test_ldI : okWith (withWord State.reset 0xA300) (fun t => t.i == 0x300) = true := by decide
theorem test_addI : okWith (withWord ((State.reset.setI 0x0FFE).setV 2 3) 0xF21E)
    (fun t => t.i == 0x1001 && t.getV 15 == 0) = true := by decide
theorem test_addI_wraps : okWith (withWord ((State.reset.setI 0xFFFF).setV 0 2) 0xF01E) (fun t => t.i == 1) = true := by
  decide
theorem test_ldF : okWith (regs 0xF029 0 5 1 0) (fun t => t.i == 0x069) = true := by decide
theorem test_ldF_lowNibble : okWith (regs 0xF129 1 0x1A 0 0) (fun t => t.i == 0x082) = true := by decide
theorem test_ldB : okWith (withWord ((State.reset.setI 0xFFD).setV 0 0xFF) 0xF033)
    (fun t => t.peek 0xFFD == 2 && t.peek 0xFFE == 5 && t.peek 0xFFF == 5 && t.i == 0xFFD) = true := by decide
theorem test_ldB_outside : errWith (withWord ((State.reset.setI 0xFFE).setV 0 0xFF) 0xF033) .memoryOutOfBounds
    = true := by decide
theorem test_dump : okWith (withWord (((State.reset.setI 0x300).setV 0 0x11).setV 1 0x22) 0xF155)
    (fun t => t.peek 0x300 == 0x11 && t.peek 0x301 == 0x22 && t.peek 0x302 == 0 && t.i == 0x302) = true := by decide
theorem test_dump_outside : errWith (withWord (State.reset.setI 0xFF1) 0xFF55) .memoryOutOfBounds = true ∧
    errWith (withWord (State.reset.setI 0x1000) 0xF055) .memoryOutOfBounds = true := by decide
/-- IM17: the font's first 16 bytes. -/
theorem test_load_font : okWith (withWord (State.reset.setI 0x50) 0xFF65)
    (fun t => t.v == #v[0xF0, 0x90, 0x90, 0x90, 0xF0, 0x20, 0x60, 0x20, 0x20, 0x70, 0xF0, 0x10, 0xF0, 0x80, 0xF0, 0xF0]
      && t.i == 0x060) = true := by decide
/-- IM18, IM19: the index update under the other two values of LOADSTORE_QUIRK. -/
theorem test_loadStore_quirks :
    okWith (withWord ((under { defaultConfig with loadStoreQuirk := .incX }).setI 0x300) 0xF155) (fun t => t.i == 0x301)
      = true ∧
    okWith (withWord ((under { defaultConfig with loadStoreQuirk := .unchanged }).setI 0x300) 0xF165)
      (fun t => t.i == 0x300) = true := by decide

/-! ### Display (DS1 to DS10) -/

theorem test_cls : okWith (withWord (State.reset.setFb (State.reset.fb.flip 63 31)) 0x00E0)
    (fun t => !t.fb.pixel 63 31 && t.getV 15 == 0) = true := by decide
/-- DS3: digit 0 at row 30, the rows below the grid clipped. -/
theorem test_drw_clip : okWith (withWord ((State.reset.setI 0x50).setV 1 30) 0xD015)
    (fun t => t.fb.pixel 0 30 && t.fb.pixel 3 30 && t.fb.pixel 0 31 && !t.fb.pixel 1 31 && t.fb.pixel 3 31 &&
      !t.fb.pixel 0 0 && t.getV 15 == 0) = true := by decide
/-- DS9: a set pixel meets a set sprite pixel. -/
theorem test_drw_collision : okWith (withWord (withByte (((State.reset.setFb (State.reset.fb.flip 60 0)).setV 0 60).setI
    0x300) 0x300 0xFF) 0xD011) (fun t => !t.fb.pixel 60 0 && t.fb.pixel 61 0 && t.fb.pixel 63 0 && !t.fb.pixel 0 0 &&
      t.getV 15 == 1) = true := by decide

/-! ### Timers and input (TI1 to TI9) -/

theorem test_skp : okWith (withWord ((State.reset.setKeyAt 10 true).setV 0 10) 0xE09E) (fun t => t.pc == 0x204) = true := by
  decide
theorem test_skp_index : errWith (regs 0xE09E 0 0x10 1 0) .invalidKeyIndex = true := by decide
theorem test_sknp : okWith (withWord ((State.reset.setV 5 10).setPc 0x210) 0xE5A1) (fun t => t.pc == 0x214) = true := by
  decide
theorem test_sknp_pressed : okWith (withWord ((State.reset.setKeyAt 10 true).setV 0 10) 0xE0A1) (fun t => t.pc == 0x202)
    = true := by decide
theorem test_ldVxDt : okWith (withWord (State.reset.setDt 0x3C) 0xF007) (fun t => t.getV 0 == 0x3C && t.dt == 0x3C)
    = true := by decide
theorem test_ldVxK : okWith (withWord ((State.reset.setKeyAt 3 true).setKeyAt 9 true) 0xF30A)
    (fun t => t.getV 3 == 3 && t.pc == 0x202) = true := by decide
theorem test_ldVxK_waits : okWith (withWord (State.reset.setPc 0x220) 0xF30A) (fun t => t.pc == 0x220) = true := by decide
theorem test_ldDtVx : okWith (regs 0xF315 3 5 0 0) (fun t => t.dt == 5 && t.st == 0) = true := by decide
theorem test_ldStVx : okWith (regs 0xF418 4 1 0 0) (fun t => t.st == 1 && t.dt == 0) = true := by decide

/-! ### Host operations (TI10 to TI13, LD2, LD3, R121) -/

theorem test_tick : (perform .tick (State.reset.setSt 1)).1.st = 0 ∧ (perform .tick (State.reset.setSt 1)).1.dt = 0 ∧
    (perform .tick (State.reset.setDt 5)).1.dt = 4 := by decide
theorem test_setKey : (perform (.setKey 15 true) State.reset).1.pressed 15 = true ∧
    (perform (.setKey 16 true) State.reset).2 = .err .invalidKeyIndex := by decide
theorem test_load : (perform (.load [0x60, 0x0A]) State.reset).1.peek 0x201 = 0x0A ∧
    (perform (.load []) State.reset).2 = .ok := by decide
theorem test_load_limit (rom : List Byte) (hl : rom.length = 3585) :
    (perform (.load rom) State.reset).2 = .err .romTooLarge := by
  have h : progBase + rom.length > memSize := by
    rw [hl]
    decide
  simp [perform, settle, hostLoad, h, raise, replyOf]
theorem test_reset : (perform .reset (withWord (State.reset.setV 3 1) 0x6001)).1 = State.reset := by decide
theorem test_reads : (perform .soundTimer (State.reset.setSt 7)).2 = .byte 7 ∧
    (perform .delayTimer (State.reset.setDt 9)).2 = .byte 9 := by decide

/-! ### Witnesses: states and operands that meet the statements' hypotheses together, each clause at its boundary -/

/-- `placeWord` writes what `fetch` reads, here for the states used below. -/
def fetches (s : State) (w : Word) : Bool := decide (fetch s = .ok w)

theorem witness_RetPopsReturnAddress : 0 < (oneFrame 0x206).sp.val ∧ ({ State.reset with sp := 16 } : State).sp.val = 16 ∧
    fetches (withWord State.reset 0x00EE) 0x00EE = true ∧ (withWord State.reset 0x00EE).sp.val = 0 := by decide
theorem witness_JumpSetsPc : fetches (withWord (State.reset.setPc 0x208) 0x1208) (0x1#4 ++ 0x208#12) = true ∧
    (withWord (State.reset.setPc 0x208) 0x1208).pc.toNat = (0x208#12).toNat ∧ (0xFFF#12 : Addr) = 0xFFF#12 := by decide
theorem witness_CallPushesReturnAddress : State.reset.sp.val < 16 ∧ ({ State.reset with sp := 15 } : State).sp.val < 16 ∧
    fetches (withWord { State.reset with sp := 16 } 0x2300) 0x2300 = true ∧
    decode 0x2300#16 = .ok (.call 0x300) ∧ (withWord { State.reset with sp := 16 } 0x2300).sp.val = 16 := by decide
/-- A CALL at 0x300 of 0x300, the stack empty. -/
theorem witness_CallPushesReturnAddress_recursive :
    fetches (withWord (State.reset.setPc 0x300) 0x2300) (0x2#4 ++ 0x300#12) = true ∧
    (withWord (State.reset.setPc 0x300) 0x2300).pc.toNat = (0x300#12).toNat ∧
    (withWord (State.reset.setPc 0x300) 0x2300).sp.val = 0 := by decide
/-- A skip at 0xFFE, taken: V0 = 0 is equal to 0 and not to 5. -/
theorem witness_SkipIfEqualByte : (State.reset.setPc 0x1000).pc = 0x1000 ∧
    ((State.reset.setPc 0x1000).getV 0 == 0) = true := by decide
theorem witness_SkipIfNotEqualByte : (State.reset.setPc 0x1000).pc = 0x1000 ∧
    ((State.reset.setPc 0x1000).getV 0 != 5) = true := by decide
theorem witness_SkipIfEqualRegister : ((State.reset.setPc 0x1000).getV 1 == (State.reset.setPc 0x1000).getV 2) = true ∧
    (0x1#4) ≠ 0 ∧
    fetches (withWord State.reset 0x5121) (0x5#4 ++ bits 1 ++ bits 2 ++ 0x1#4) = true := by decide
theorem witness_SkipIfNotEqualRegister : (((State.reset.setPc 0x1000).setV 1 1).getV 1 !=
    ((State.reset.setPc 0x1000).setV 1 1).getV 2) = true ∧ (0xF#4) ≠ 0 ∧
    fetches (withWord State.reset 0x912F) (0x9#4 ++ bits 1 ++ bits 2 ++ 0xF#4) = true := by decide
/-- The smallest sum that cannot be fetched is 0xFFF; CF12 gives 0x10FE. -/
theorem witness_IndexedJumpAddsOffset : (15 : Reg) = fieldX (0xB#4 ++ 0xFFF#12) ∧
    okWith (regs 0xBFFE 0 1 1 0) (fun t => decide (t.pc.toNat = 0xFFF)) = true ∧
    okWith (regs 0xBFFF 0 0xFF 1 0) (fun t => decide (t.pc.toNat = 0x10FE)) = true := by decide
theorem witness_ShiftRightSetsBitOut : 5 = (if (State.reset.setV 1 5).cfg.shiftQuirk = .useVY
    then (State.reset.setV 1 5).getV 1 else (State.reset.setV 1 5).getV 0).toNat := by decide
theorem witness_ShiftLeftSetsBitOut : 0x81 = (if (State.reset.setV 1 0x81).cfg.shiftQuirk = .useVY
    then (State.reset.setV 1 0x81).getV 1 else (State.reset.setV 1 0x81).getV 0).toNat := by decide
/-- A mask bit that is 0 and one that is 1. -/
theorem witness_RandomIsMasked : (0x0F#8).getLsbD 4 = false ∧ (0x0F#8).getLsbD 3 = true := by decide
theorem witness_BcdStoresThreeDigits : indexAddr (State.reset.setI 0xFFD) + 2 < 4096 ∧
    (State.reset.setI 0xFFE).i.toNat + 2 ≥ 4096 ∧
    fetches (withWord (State.reset.setI 0xFFE) 0xF033) 0xF033 = true ∧ decode 0xF033#16 = .ok (.ldB 0) := by decide
theorem witness_DumpStoresRegisters : indexAddr (State.reset.setI 0xFF0) + (15 : Reg).val < 4096 ∧
    (State.reset.setI 0xFF1).i.toNat + (15 : Reg).val ≥ 4096 ∧ (0 : Reg) ≤ 0 ∧
    fetches (withWord (State.reset.setI 0xFF1) 0xFF55) 0xFF55 = true ∧ decode 0xFF55#16 = .ok (.ldMemStore 15) := by decide
theorem witness_LoadFillsRegisters : indexAddr (State.reset.setI 0xFF0) + (15 : Reg).val < 4096 ∧
    (State.reset.setI 0x1000).i.toNat + (0 : Reg).val ≥ 4096 ∧
    fetches (withWord (State.reset.setI 0x1000) 0xF065) 0xF065 = true ∧ decode 0xF065#16 = .ok (.ldMemLoad 0) := by decide
/-- DXY0 anywhere, the last sprite that fits, the first that does not (DS6, DS7). -/
theorem witness_DrawXorsSprite : ((0 : Fin 16).val = 0 ∨ indexAddr (State.reset.setI 0xFFFF) + (0 : Fin 16).val - 1 < 4096) ∧
    indexAddr (State.reset.setI 0xFFE) + (2 : Fin 16).val - 1 < 4096 ∧
    (0 < (3 : Fin 16).val ∧ (State.reset.setI 0xFFE).i.toNat + (3 : Fin 16).val - 1 ≥ 4096) ∧
    fetches (withWord (State.reset.setI 0xFFE) 0xD003) 0xD003 = true ∧ decode 0xD003#16 = .ok (.drw 0 0 3) := by decide
theorem witness_SkipIfKeyPressed : ((State.reset.setV 0 15).getV 0).toNat = (15 : Fin 16).val ∧
    ((State.reset.setV 0 16).getV 0).toNat > 15 ∧ fetches (regs 0xE09E 0 16 1 0) 0xE09E = true ∧
    decode 0xE09E#16 = .ok (.skp 0) := by decide
theorem witness_SkipIfKeyNotPressed : ((State.reset.setV 0 15).getV 0).toNat = (15 : Fin 16).val ∧
    ((State.reset.setV 0 16).getV 0).toNat > 15 ∧ fetches (regs 0xE0A1 0 16 1 0) 0xE0A1 = true ∧
    decode 0xE0A1#16 = .ok (.sknp 0) := by decide
theorem witness_KeyWaitStoresLowestKey : (State.reset.setKeyAt 3 true).pressed 3 = true ∧
    (∀ j : Fin 16, j < 3 → (State.reset.setKeyAt 3 true).pressed j = false) ∧
    ∀ k, State.reset.pressed k = false := by decide
theorem witness_StepRunsDecodedInstruction : (withWord (State.reset.setPc 0xFFE) 0x6001).pc.toNat + 1 ≤ 0xFFF ∧
    decodeBytes ((withWord (State.reset.setPc 0xFFE) 0x6001).peek 0xFFE)
      ((withWord (State.reset.setPc 0xFFE) 0x6001).peek 0xFFF) = .ok (.ldImm 0 1) := by decide
theorem witness_FetchIsBigEndian : (State.reset.setPc 0xFFE).pc.toNat + 1 ≤ 0xFFF ∧
    (State.reset.setPc 0xFFF).pc.toNat + 1 > 0xFFF := by decide
/-- One word of each row of R56's table, and the two words of family 0 that decode. -/
theorem witness_IllegalWordsRaise : IllegalWord 0x0FFF ∧ IllegalWord 0x5121 ∧ IllegalWord 0x8128 ∧ IllegalWord 0x9001 ∧
    IllegalWord 0xE09F ∧ IllegalWord 0xF0FF := by
  refine ⟨?_, ?_, ?_, ?_, ?_, ?_⟩ <;> simp [IllegalWord]
theorem witness_IllegalWordsRaise_edges : ¬ IllegalWord 0x00E0 ∧ ¬ IllegalWord 0x1000 ∧
    fetches (withWord State.reset 0x8128) 0x8128 = true := by
  refine ⟨?_, ?_, by decide⟩ <;> simp [IllegalWord]
theorem witness_OpcodeRowsDecideDecode : (⟨0xF00F, 0x8004⟩ : OpcodeRow) ∈ opcodeRows ∧
    (⟨0xF00F, 0x8004⟩ : OpcodeRow).Matches 0x8124 ∧ decode 0x8124#16 = .ok (.addReg 1 2) := by decide
theorem witness_DecodeOfEncode : wellFormed (.jpV0 15 0xFFF) = true ∧ wellFormed (.drw 15 15 15) = true := by decide
theorem witness_EncodeOfDecode : decode 0xBFFF#16 = .ok (.jpV0 15 0xFFF) := by decide
theorem witness_ErrorsChangeNothing : perform .step State.reset = (State.reset, .err .invalidOpcode) := by decide
theorem witness_ErrorsRepeat : step State.reset = .fault .invalidOpcode := rfl
/-- One state for each way a step fails, and one that does not fail. -/
theorem witness_StepFailsExactlyAsListed : errWith (State.reset.setPc 0xFFF) .memoryOutOfBounds = true ∧
    errWith State.reset .invalidOpcode = true ∧ errWith (withWord State.reset 0x00EE) .stackUnderflow = true ∧
    errWith (withWord { State.reset with sp := 16 } 0x2300) .stackOverflow = true ∧
    errWith (regs 0xE09E 0 16 1 0) .invalidKeyIndex = true ∧
    errWith (withWord (State.reset.setI 0xFFE) 0xF033) .memoryOutOfBounds = true ∧
    errWith (withWord (State.reset.setI 0xFFE) 0xD003) .memoryOutOfBounds = true ∧
    okWith (withWord State.reset 0x6001) (fun _ => true) = true := by decide
theorem witness_StepChangesOnlyNamedState : ∃ t, fetch (withWord State.reset 0x8124) = .ok 0x8124 ∧
    decode 0x8124#16 = .ok (.addReg 1 2) ∧ step (withWord State.reset 0x8124) = .next t := ⟨_, by decide, by decide, rfl⟩
/-- Registers on both sides of each clause: the flag, the destination, the last loaded register and the next. -/
theorem witness_StepChangesOnlyNamedState_registers : ¬ MayWriteReg defaultConfig (.addReg 1 2) 2 ∧
    MayWriteReg defaultConfig (.addReg 1 2) 15 ∧ ¬ MayWriteReg defaultConfig (.addImm 1 2) 15 ∧
    ¬ MayWriteReg defaultConfig (.ldMemLoad 3) 4 ∧ MayWriteReg defaultConfig (.ldMemLoad 3) 3 ∧
    ¬ MayWriteReg defaultConfig (.jp 0x208) 0 ∧ ¬ MaySetPc (.addReg 1 2) ∧ MaySetPc (.jp 0x208) := by
  simp [MayWriteReg, MaySetPc]
theorem witness_StepIgnoresSoundTimer : (∃ t, step (withWord State.reset 0xF418) = .next t) ∧
    step State.reset = .fault .invalidOpcode := ⟨⟨_, rfl⟩, rfl⟩
theorem witness_KeyWaitEndsOnPress : fetches (withWord (State.reset.setPc 0x220) 0xF30A) 0xF30A = true ∧
    decode 0xF30A#16 = .ok (.ldVxK 3) ∧ ∀ k, (withWord (State.reset.setPc 0x220) 0xF30A).pressed k = false := by decide
/-- P7's fourth step: V0 and V1 stored at 0x208, the address of the next instruction. -/
theorem witness_StoredBytesAreFetched : ∃ t, exec (.ldMemStore 1) ((State.reset.setI 0x208).setPc 0x208) = .next t ∧
    (1 : Reg).val = (0 : Reg).val + 1 ∧ (1 : Reg) ≤ 1 ∧
    t.pc.toNat = indexAddr ((State.reset.setI 0x208).setPc 0x208) + (0 : Reg).val := ⟨_, rfl, by decide, by decide, rfl⟩
theorem witness_DumpThenLoadRestores : ∃ t u : State, exec (.ldMemStore 15) (State.reset.setI 0xFF0) = .next t ∧
    u.mem = t.mem ∧ u.cfg = t.cfg ∧ u.i = (State.reset.setI 0xFF0).i :=
  ⟨_, State.reset.setI 0xFF0, rfl, rfl, rfl, rfl⟩
/-- W2: sixteen words on an empty stack; the full and the empty stack. -/
theorem witness_CallStackIsLifo : State.reset.sp.val + (List.replicate 16 (0x202 : Word)).length ≤ 16 ∧
    ({ State.reset with sp := 16 } : State).sp.val = 16 ∧ State.reset.sp.val = 0 := by decide
theorem witness_DrawTwiceRestoresDisplay : (1 : Reg) ≠ 15 ∧ (2 : Reg) ≠ 15 ∧
    (∃ t, exec (.drw 1 2 5) (State.reset.setI 0x50) = .next t) ∧
    ∀ px py, (State.reset.setI 0x50).fb.pixel px py = false :=
  ⟨by decide, by decide, ⟨_, rfl⟩, fun px py => by simp [Framebuffer.pixel, State.reset, State.resetWith, State.setI]⟩
theorem witness_LoadCopiesRom : 0x200 + (List.replicate 3585 (0 : Byte)).length > 4096 ∧
    0x200 + (List.replicate 3584 (0 : Byte)).length ≤ 4096 := by
  rw [List.length_replicate, List.length_replicate]
  decide
theorem witness_SetKeyWritesOneKey : (16 : Nat) > 15 ∧ (15 : Nat) ≤ 15 ∧
    perform (.setKey 16 true) State.reset = (State.reset, .err .invalidKeyIndex) := by decide
theorem witness_WrittenByteIsReadBack : (4095 : Nat) < 4096 ∧ (4094 : Nat) ≠ 4095 := by decide
theorem witness_TickDecrementsTimers : 0 < (State.reset.setDt 1).dt.toNat ∧ State.reset.dt.toNat = 0 ∧
    0 < (State.reset.setSt 1).st.toNat ∧ State.reset.st.toNat = 0 := by decide
theorem witness_TickDecrementsTimers_step : ∃ t, step (withWord State.reset 0x6001) = .next t := ⟨_, rfl⟩
/-- A state that is not the reset state, with a frame on its stack and a byte in its memory. -/
theorem witness_StepKeepsInvariant : (withWord (oneFrame 0x1000) 0x00EE).Inv ∧
    ∃ t, step (withWord (oneFrame 0x1000) 0x00EE) = .next t :=
  ⟨⟨by decide, by decide, by decide⟩, ⟨_, rfl⟩⟩
theorem witness_ReachableStatesMeetInvariant : Reachable defaultConfig
    (performAll [.load [0x60, 0x0A, 0x70, 0x05], .step, .step, .tick, .setKey 3 true] State.reset).1 := ⟨0, _, rfl⟩

end Sys2Proof.Tests
end

section
/-! PROOF. Fetch is big-endian (30_encoding.md R53). -/

namespace Sys2Proof.Machine

theorem toNat_wordOfBytes (b0 b1 : Byte) : (wordOfBytes b0 b1).toNat = 256 * b0.toNat + b1.toNat := by
  rw [wordOfBytes, BitVec.toNat_append, ← Nat.shiftLeft_add_eq_or_of_lt b1.isLt, Nat.shiftLeft_eq, Nat.mul_comm]

/-- A `step()` that faults returns the error to the host and changes nothing (R14, R106). -/
theorem perform_step_of_fault {s : State} {k : Fault} (h : step s = .fault k) : perform .step s = (s, .err k) := by
  rw [perform, h]
  rfl

/-- Settles O36: both clauses are the two branches of `fetch`; a failed fetch is a fault of the step. -/
theorem fetchIsBigEndian : Obligations.FetchIsBigEndian := by
  intro s
  constructor
  · intro hpc
    exact ⟨_, by rw [fetch_eq, if_neg (by omega)], toNat_wordOfBytes _ _⟩
  · intro hpc
    have hfetch : fetch s = .error .memoryOutOfBounds := by rw [fetch_eq, if_pos hpc]
    exact ⟨hfetch, perform_step_of_fault (step_fault.2 (.inl hfetch))⟩

end Sys2Proof.Machine
end

section
/-! PROOF. A decoded instruction encodes back to its word (30_encoding.md R51, R55). -/

namespace Sys2Proof

/-! ### A word from its major opcode, its fixed fields and its operand fields -/

theorem wordNNN_of_fieldOp {w : Word} {op : BitVec 4} (hop : (fieldOp w).toNat = op.toNat) :
    wordNNN op (fieldNNN w) = w := by
  rw [← BitVec.eq_of_toNat_eq hop, wordNNN_fields]

theorem wordXNN_of_fieldOp {w : Word} {op : BitVec 4} (hop : (fieldOp w).toNat = op.toNat) :
    wordXNN op (fieldX w) (fieldNN w) = w := by
  rw [← BitVec.eq_of_toNat_eq hop, wordXNN_fields]

theorem wordXNN_of_fieldNN {w : Word} {op : BitVec 4} {nn : Byte} (hop : (fieldOp w).toNat = op.toNat)
    (hnn : (fieldNN w).toNat = nn.toNat) : wordXNN op (fieldX w) nn = w := by
  rw [← BitVec.eq_of_toNat_eq hnn, wordXNN_of_fieldOp hop]

theorem wordXYN_of_fieldN {w : Word} {op n : BitVec 4} (hop : (fieldOp w).toNat = op.toNat)
    (hn : (fieldN w).toNat = n.toNat) : wordXYN op (fieldX w) (fieldY w) n = w := by
  rw [← BitVec.eq_of_toNat_eq hop, ← BitVec.eq_of_toNat_eq hn, wordXYN_fields]

/-! ### Encoding what a family's decoder answers -/

theorem encode_of_decode0 {w : Word} {i : Instr} (h : decode0 w = .ok i) : encode i = w := by
  unfold decode0 at h
  split at h
  · next hw => cases h; exact hw.symm
  · split at h
    · next hw => cases h; exact hw.symm
    · cases h

theorem encode_of_decode5 {w : Word} {i : Instr} (hop : (fieldOp w).toNat = 0x5) (h : decode5 w = .ok i) :
    encode i = w := by
  unfold decode5 at h
  split at h <;> cases h
  exact wordXYN_of_fieldN hop ‹_›

theorem encode_of_decode8 {w : Word} {i : Instr} (hop : (fieldOp w).toNat = 0x8) (h : decode8 w = .ok i) :
    encode i = w := by
  unfold decode8 at h
  split at h <;> cases h <;> exact wordXYN_of_fieldN hop ‹_›

theorem encode_of_decode9 {w : Word} {i : Instr} (hop : (fieldOp w).toNat = 0x9) (h : decode9 w = .ok i) :
    encode i = w := by
  unfold decode9 at h
  split at h <;> cases h
  exact wordXYN_of_fieldN hop ‹_›

theorem encode_of_decodeE {w : Word} {i : Instr} (hop : (fieldOp w).toNat = 0xE) (h : decodeE w = .ok i) :
    encode i = w := by
  unfold decodeE at h
  split at h <;> cases h <;> exact wordXNN_of_fieldNN hop ‹_›

theorem encode_of_decodeF {w : Word} {i : Instr} (hop : (fieldOp w).toNat = 0xF) (h : decodeF w = .ok i) :
    encode i = w := by
  unfold decodeF at h
  split at h <;> cases h <;> exact wordXNN_of_fieldNN hop ‹_›

/-- The cases are `decode`'s arms; the last is op = 0xF, which no earlier arm takes. -/
theorem encode_of_decode {w : Word} {i : Instr} (h : decode w = .ok i) : encode i = w := by
  unfold decode at h
  split at h
  case h_1 => exact encode_of_decode0 h
  case h_6 hop => exact encode_of_decode5 hop h
  case h_9 hop => exact encode_of_decode8 hop h
  case h_10 hop => exact encode_of_decode9 hop h
  case h_14 hop => cases h; exact wordXYN_of_fieldN hop rfl
  case h_15 hop => exact encode_of_decodeE hop h
  case h_16 =>
    have hop : (fieldOp w).toNat = 0xF := by
      have := (fieldOp w).isLt
      simp only [imp_false] at *
      omega
    exact encode_of_decodeF hop h
  case h_2 hop | h_3 hop | h_11 hop | h_12 hop => cases h; exact wordNNN_of_fieldOp hop
  case h_4 hop | h_5 hop | h_7 hop | h_8 hop | h_13 hop => cases h; exact wordXNN_of_fieldOp hop

end Sys2Proof
end

section
/-! PROOF. The opcode table's rows are disjoint and decide decoding (30_encoding.md R59). -/

namespace Sys2Proof

/-! ### Whether a word decodes rests on the fixed bits of its family alone -/

theorem isOk_decode5_congr {w v : Word} (h : fieldN w = fieldN v) : (decode5 w).isOk = (decode5 v).isOk := by
  unfold decode5
  rw [h]
  split <;> rfl

theorem isOk_decode8_congr {w v : Word} (h : fieldN w = fieldN v) : (decode8 w).isOk = (decode8 v).isOk := by
  unfold decode8
  rw [h]
  split <;> rfl

theorem isOk_decode9_congr {w v : Word} (h : fieldN w = fieldN v) : (decode9 w).isOk = (decode9 v).isOk := by
  unfold decode9
  rw [h]
  split <;> rfl

theorem isOk_decodeE_congr {w v : Word} (h : fieldNN w = fieldNN v) : (decodeE w).isOk = (decodeE v).isOk := by
  unfold decodeE
  rw [h]
  split <;> rfl

theorem isOk_decodeF_congr {w v : Word} (h : fieldNN w = fieldNN v) : (decodeF w).isOk = (decodeF v).isOk := by
  unfold decodeF
  rw [h]
  split <;> rfl

/-- The whole word counts in family 0, the low nibble in 5, 8 and 9, the low byte in E and F; every word of another
family decodes. -/
theorem isOk_decode_congr {w v : Word} (hop : fieldOp w = fieldOp v) (h0 : (fieldOp v).toNat = 0x0 → w = v)
    (hn : (fieldOp v).toNat ∈ [0x5, 0x8, 0x9] → fieldN w = fieldN v)
    (hnn : (fieldOp v).toNat ∈ [0xE, 0xF] → fieldNN w = fieldNN v) : (decode w).isOk = (decode v).isOk := by
  unfold decode
  rw [hop]
  split
  case h_1 h => rw [h0 h]
  case h_6 h => exact isOk_decode5_congr (hn (by simp [h]))
  case h_9 h => exact isOk_decode8_congr (hn (by simp [h]))
  case h_10 h => exact isOk_decode9_congr (hn (by simp [h]))
  case h_15 h => exact isOk_decodeE_congr (hnn (by simp [h]))
  case h_16 =>
    have h : (fieldOp v).toNat = 0xF := by
      have := (fieldOp v).isLt
      simp only [imp_false] at *
      omega
    exact isOk_decodeF_congr (hnn (by simp [h]))
  all_goals rfl

/-! ### The rows of the table -/

theorem fieldOp_and (w m : Word) : fieldOp (w &&& m) = fieldOp w &&& fieldOp m := BitVec.extractLsb'_and

theorem fieldN_and (w m : Word) : fieldN (w &&& m) = fieldN w &&& fieldN m := BitVec.extractLsb'_and

theorem fieldNN_and (w m : Word) : fieldNN (w &&& m) = fieldNN w &&& fieldNN m := BitVec.extractLsb'_and

/-- Every row's mask covers the bits that `isOk_decode_congr` asks for. -/
theorem opcodeRows_mask : ∀ r ∈ opcodeRows, fieldOp r.mask = BitVec.allOnes 4 ∧
    ((fieldOp r.bits).toNat = 0x0 → r.mask = BitVec.allOnes 16) ∧
    ((fieldOp r.bits).toNat ∈ [0x5, 0x8, 0x9] → fieldN r.mask = BitVec.allOnes 4) ∧
    ((fieldOp r.bits).toNat ∈ [0xE, 0xF] → fieldNN r.mask = BitVec.allOnes 8) := by
  decide

theorem opcodeRows_bits_decode : ∀ r ∈ opcodeRows, (decode r.bits).isOk = true := by decide

/-- A word of a row decodes as the row's own bits do. -/
theorem decode_of_matches {r : OpcodeRow} {w : Word} (hr : r ∈ opcodeRows) (hm : r.Matches w) :
    ∃ i, decode w = .ok i := by
  obtain ⟨hop, h0, hn, hnn⟩ := opcodeRows_mask r hr
  have hok : (decode w).isOk = (decode r.bits).isOk := by
    refine isOk_decode_congr ?_ (fun h => ?_) (fun h => ?_) (fun h => ?_)
    · rw [← hm, fieldOp_and, hop, BitVec.and_allOnes]
    · rw [← hm, h0 h, BitVec.and_allOnes]
    · rw [← hm, fieldN_and, hn h, BitVec.and_allOnes]
    · rw [← hm, fieldNN_and, hnn h, BitVec.and_allOnes]
  rw [opcodeRows_bits_decode r hr] at hok
  cases hd : decode w with
  | ok i => exact ⟨i, rfl⟩
  | error e => rw [hd] at hok; cases hok

/-- Two rows of one word agree where both masks have a bit. -/
theorem OpcodeRow.bits_agree {r q : OpcodeRow} {w : Word} (hr : r.Matches w) (hq : q.Matches w) :
    r.bits &&& q.mask = q.bits &&& r.mask := by
  rw [← hr, ← hq, BitVec.and_assoc, BitVec.and_assoc, BitVec.and_comm r.mask]

theorem opcodeRows_eq_of_bits_agree :
    ∀ r ∈ opcodeRows, ∀ q ∈ opcodeRows, r.bits &&& q.mask = q.bits &&& r.mask → r = q := by
  decide

open Laws.EncodingRow in
theorem encode_matches_opcodeRow : ∀ i : Instr, Statement i
  | .cls => cls | .ret => ret | .jp _ => jp _ | .call _ => call _ | .seImm _ _ => seImm _ _
  | .sneImm _ _ => sneImm _ _ | .seReg _ _ => seReg _ _ | .ldImm _ _ => ldImm _ _ | .addImm _ _ => addImm _ _
  | .ldReg _ _ => ldReg _ _ | .orReg _ _ => orReg _ _ | .andReg _ _ => andReg _ _ | .xorReg _ _ => xorReg _ _
  | .addReg _ _ => addReg _ _ | .sub _ _ => sub _ _ | .shr _ _ => shr _ _ | .subn _ _ => subn _ _
  | .shl _ _ => shl _ _ | .sneReg _ _ => sneReg _ _ | .ldI _ => ldI _ | .jpV0 _ _ => jpV0 _ _ | .rnd _ _ => rnd _ _
  | .drw _ _ _ => drw _ _ _ | .skp _ => skp _ | .sknp _ => sknp _ | .ldVxDt _ => ldVxDt _ | .ldVxK _ => ldVxK _
  | .ldDtVx _ => ldDtVx _ | .ldStVx _ => ldStVx _ | .addI _ => addI _ | .ldF _ => ldF _ | .ldB _ => ldB _
  | .ldMemStore _ => ldMemStore _ | .ldMemLoad _ => ldMemLoad _

/-- The row of a decoded instruction is the table's, and its word is of that row, being the instruction's encoding. -/
theorem opcodeRow_of_decode {w : Word} {i : Instr} (h : decode w = .ok i) :
    opcodeRow i ∈ opcodeRows ∧ (opcodeRow i).Matches w := by
  have hrow := encode_matches_opcodeRow i
  rwa [Laws.EncodingRow.Statement, encode_of_decode h] at hrow

/-- Settles O38: rows that share a word agree on their common bits, which no two rows of the table do; a word of a
row decodes as the row's bits do; a decoded word is its instruction's encoding, which is of the instruction's row. -/
theorem opcodeRowsDecideDecode : Obligations.OpcodeRowsDecideDecode :=
  ⟨rfl,
   fun _ r q hr hq hrw hqw => opcodeRows_eq_of_bits_agree r hr q hq (OpcodeRow.bits_agree hrw hqw),
   fun _ => ⟨fun ⟨_, h⟩ => ⟨_, opcodeRow_of_decode h⟩, fun ⟨_, hr, hm⟩ => decode_of_matches hr hm⟩,
   fun _ _ h => opcodeRow_of_decode h⟩

end Sys2Proof
end

section
/-! PROOF. Jumps and skips on a byte (40_control_flow.md R65, R67, R68, R71). -/

namespace Sys2Proof.Machine

open Sys2Proof.Statements

/-! ### Shared by jumps and skips -/

theorem step_of_fetch_decode {s : State} {w : Word} {i : Instr} (hw : fetch s = .ok w) (hi : decode w = .ok i) :
    step s = exec i (advancePc s) := by
  rw [step, hw, attempt_ok, hi]

/-- There is no word to fetch at 0xFFF and above (R53). -/
theorem step_of_pc_ge {s : State} (h : 0xFFF ≤ s.pc.toNat) : step s = .fault .memoryOutOfBounds :=
  step_fault.2 (.inl (by rw [fetch_eq, if_pos (by omega)]))

theorem advancePc_setPc_self (s : State) : (advancePc s).setPc s.pc = s := rfl

/-! ### Jumps (R65, R71) -/

theorem toNat_zext16 (nnn : Addr) : (zext16 nnn).toNat = nnn.toNat :=
  BitVec.toNat_setWidth_of_le (by decide)

theorem decode_jp (nnn : Addr) : decode (wordNNN 0x1#4 nnn) = .ok (.jp nnn) := by simp [decode]

theorem decode_jpV0 (nnn : Addr) :
    decode (wordNNN 0xB#4 nnn) = .ok (.jpV0 (fieldX (wordNNN 0xB#4 nnn)) nnn) := by simp [decode]

theorem exec_jp (nnn : Addr) (s : State) : exec (.jp nnn) s = .next (s.setPc (zext16 nnn)) := rfl

theorem exec_jpV0 (x : Reg) (nnn : Addr) (s : State) :
    exec (.jpV0 x nnn) s = .next (s.setPc (zext16 nnn + (jumpOffset s x).setWidth 16)) := rfl

/-- The sum of a 12-bit address and a byte fits in 16 bits, so nothing is lost. -/
theorem toNat_zext16_add (nnn : Addr) (b : Byte) :
    (zext16 nnn + b.setWidth 16).toNat = nnn.toNat + b.toNat := by
  have hnnn := nnn.isLt
  have hb := b.isLt
  rw [BitVec.toNat_add, toNat_zext16, BitVec.toNat_setWidth_of_le (by decide), Nat.mod_eq_of_lt (by omega)]

/-- A jump that finds PC already at its target, before the advance, gives the state back. -/
theorem step_jp_self {s : State} {w : Word} {nnn : Addr} (hw : fetch s = .ok w) (hi : decode w = .ok (.jp nnn))
    (hpc : s.pc.toNat = nnn.toNat) : step s = .next s := by
  have hzext : zext16 nnn = s.pc := BitVec.eq_of_toNat_eq (by rw [toNat_zext16, hpc])
  rw [step_of_fetch_decode hw hi, exec_jp, hzext, advancePc_setPc_self]

/-- Settles O8: NNN plus a byte does not wrap, for either offset register, and no word is fetched at 0xFFF or above. -/
theorem indexedJumpAddsOffset : Obligations.IndexedJumpAddsOffset := by
  rintro nnn x rfl
  refine ⟨decode_jpV0 nnn, fun s => ⟨_, exec_jpV0 _ nnn s, ?_, rfl, step_of_pc_ge⟩⟩
  rw [State.setPc_pc, toNat_zext16_add]
  unfold jumpOffset
  cases s.cfg.jumpQuirk <;> rfl

/-- Settles O2: the target is zero-extended, so PC is the number NNN; 0xFFF cannot be fetched. -/
theorem jumpSetsPc : Obligations.JumpSetsPc := by
  refine fun nnn => ⟨decode_jp nnn, fun s => ⟨_, exec_jp nnn s, toNat_zext16 nnn, rfl, ?_⟩,
    fun s hw hpc => step_jp_self hw (decode_jp nnn) hpc⟩
  rintro rfl
  exact step_of_pc_ge (toNat_zext16 0xFFF#12).ge

/-! ### Skips on a byte (R67, R68) -/

/-- An instruction that answers `skipIf` skips; PC is 0x1002 after a skip from 0x1000. -/
theorem skipsWhen_of_exec {i : Instr} {c : State → Bool} (h : ∀ s, exec i s = .next (skipIf (c s) s)) :
    SkipsWhen i c := by
  intro s
  constructor
  · rw [h, skipIf_eq]
  · intro hpc _
    exact step_of_pc_ge (by simp [hpc])

theorem decode_seImm (x : Reg) (nn : Byte) : decode (wordXNN 0x3#4 x nn) = .ok (.seImm x nn) := by simp [decode]

theorem decode_sneImm (x : Reg) (nn : Byte) : decode (wordXNN 0x4#4 x nn) = .ok (.sneImm x nn) := by simp [decode]

theorem exec_seImm (x : Reg) (nn : Byte) (s : State) :
    exec (.seImm x nn) s = .next (skipIf (s.getV x == nn) s) := rfl

theorem exec_sneImm (x : Reg) (nn : Byte) (s : State) :
    exec (.sneImm x nn) s = .next (skipIf (s.getV x != nn) s) := by
  rw [bne, beq_eq_decide, ← decide_not]
  rfl

/-- Settles O4: SE answers `skipIf` on equality. -/
theorem skipIfEqualByte : Obligations.SkipIfEqualByte :=
  fun x nn => ⟨decode_seImm x nn, skipsWhen_of_exec (exec_seImm x nn)⟩

/-- Settles O5: SNE answers `skipIf` on inequality. -/
theorem skipIfNotEqualByte : Obligations.SkipIfNotEqualByte :=
  fun x nn => ⟨decode_sneImm x nn, skipsWhen_of_exec (exec_sneImm x nn)⟩

end Sys2Proof.Machine
end

section
/-! PROOF. Register and ALU instructions (41_alu.md R73, R75 to R83). -/

namespace Sys2Proof.Machine

open Sys2Proof.Statements

/-! ### Decoding (R55) -/

theorem decode_ldImm (x : Reg) (nn : Byte) : decode (wordXNN 0x6#4 x nn) = .ok (.ldImm x nn) := by simp [decode]

theorem decode_family8 (x y : Reg) (n : BitVec 4) :
    decode (wordXYN 0x8#4 x y n) = decode8 (wordXYN 0x8#4 x y n) := by simp [decode]

theorem decode_ldReg (x y : Reg) : decode (wordXYN 0x8#4 x y 0x0#4) = .ok (.ldReg x y) := by
  simp [decode_family8, decode8]

theorem decode_orReg (x y : Reg) : decode (wordXYN 0x8#4 x y 0x1#4) = .ok (.orReg x y) := by
  simp [decode_family8, decode8]

theorem decode_andReg (x y : Reg) : decode (wordXYN 0x8#4 x y 0x2#4) = .ok (.andReg x y) := by
  simp [decode_family8, decode8]

theorem decode_xorReg (x y : Reg) : decode (wordXYN 0x8#4 x y 0x3#4) = .ok (.xorReg x y) := by
  simp [decode_family8, decode8]

theorem decode_addReg (x y : Reg) : decode (wordXYN 0x8#4 x y 0x4#4) = .ok (.addReg x y) := by
  simp [decode_family8, decode8]

theorem decode_sub (x y : Reg) : decode (wordXYN 0x8#4 x y 0x5#4) = .ok (.sub x y) := by
  simp [decode_family8, decode8]

theorem decode_shr (x y : Reg) : decode (wordXYN 0x8#4 x y 0x6#4) = .ok (.shr x y) := by
  simp [decode_family8, decode8]

theorem decode_subn (x y : Reg) : decode (wordXYN 0x8#4 x y 0x7#4) = .ok (.subn x y) := by
  simp [decode_family8, decode8]

theorem decode_shl (x y : Reg) : decode (wordXYN 0x8#4 x y 0xE#4) = .ok (.shl x y) := by
  simp [decode_family8, decode8]

/-! ### Executing: the three ways a result is written -/

theorem exec_ldImm (x : Reg) (nn : Byte) (s : State) : exec (.ldImm x nn) s = .next (s.setV x nn) := rfl

theorem exec_ldReg (x y : Reg) (s : State) : exec (.ldReg x y) s = .next (s.setV x (s.getV y)) := rfl

theorem exec_orReg (x y : Reg) (s : State) :
    exec (.orReg x y) s = .next (setLogicResult s x (s.getV x ||| s.getV y)) := rfl

theorem exec_andReg (x y : Reg) (s : State) :
    exec (.andReg x y) s = .next (setLogicResult s x (s.getV x &&& s.getV y)) := rfl

theorem exec_xorReg (x y : Reg) (s : State) :
    exec (.xorReg x y) s = .next (setLogicResult s x (s.getV x ^^^ s.getV y)) := rfl

theorem exec_addReg (x y : Reg) (s : State) : exec (.addReg x y) s =
    .next (setResultFlag s x (s.getV x + s.getV y) (flagByte (carryOut (s.getV x) (s.getV y)))) := rfl

theorem exec_sub (x y : Reg) (s : State) : exec (.sub x y) s =
    .next (setResultFlag s x (s.getV x - s.getV y) (flagByte (notBorrow (s.getV x) (s.getV y)))) := rfl

theorem exec_shr (x y : Reg) (s : State) : exec (.shr x y) s =
    .next (setResultFlag s x (shiftSource s x y >>> 1) (bitOutRight (shiftSource s x y))) := rfl

theorem exec_subn (x y : Reg) (s : State) : exec (.subn x y) s =
    .next (setResultFlag s x (s.getV y - s.getV x) (flagByte (notBorrow (s.getV y) (s.getV x)))) := rfl

theorem exec_shl (x y : Reg) (s : State) : exec (.shl x y) s =
    .next (setResultFlag s x (shiftSource s x y <<< 1) (bitOutLeft (shiftSource s x y))) := rfl

section
variable {i : Instr} {s : State} {x : Reg} {r f : Byte} {m n : Nat}

/-- A plain result: VF changes only as the destination. -/
theorem writesRegs_of_exec_setV (h : exec i s = .next (s.setV x r)) (hr : r.toNat = m) :
    WritesRegs i s fun k => if k = x then m else (s.getV k).toNat :=
  ⟨_, h, fun k => by rw [State.getV_setV, apply_ite BitVec.toNat, hr], rfl⟩

/-- A result with a flag, which is the last write (R21). -/
theorem writesRegs_of_exec_setResultFlag (h : exec i s = .next (setResultFlag s x r f)) (hr : r.toNat = m)
    (hf : f.toNat = n) : WritesRegs i s fun k => if k = 15 then n else if k = x then m else (s.getV k).toNat :=
  ⟨_, h, fun k => by rw [getV_setResultFlag, apply_ite BitVec.toNat, apply_ite BitVec.toNat, hr, hf],
    setResultFlag_eq s x r f⟩

/-- A logic result, after which VF is 0 under VF_RESET_QUIRK. -/
theorem writesRegs_of_exec_setLogicResult (h : exec i s = .next (setLogicResult s x r)) (hr : r.toNat = m) :
    WritesRegs i s fun k =>
      if s.cfg.vfResetQuirk = true ∧ k = 15 then 0 else if k = x then m else (s.getV k).toNat :=
  ⟨_, h, fun k => by rw [getV_setLogicResult, apply_ite BitVec.toNat, apply_ite BitVec.toNat, hr]; rfl,
    setLogicResult_eq s x r⟩

end

/-! ### Results and flags as numbers -/

theorem toNat_flagByte_carryOut (a b : Byte) :
    (flagByte (carryOut a b)).toNat = if a.toNat + b.toNat > 255 then 1 else 0 := by
  simp only [toNat_flagByte, carryOut, decide_eq_true_eq]

theorem toNat_flagByte_notBorrow (a b : Byte) :
    (flagByte (notBorrow a b)).toNat = if a.toNat ≥ b.toNat then 1 else 0 := by
  simp only [toNat_flagByte, notBorrow, decide_eq_true_eq]

theorem toNat_byte_sub (a b : Byte) : (a - b).toNat = (a.toNat + 256 - b.toNat) % 256 := by
  have hb := b.isLt
  rw [BitVec.toNat_sub]
  congr 1
  omega

theorem toNat_bitOutRight (src : Byte) : (bitOutRight src).toNat = src.toNat % 2 :=
  (BitVec.toNat_and src 1).trans (Nat.and_one_is_mod _)

theorem toNat_bitOutLeft (src : Byte) : (bitOutLeft src).toNat = src.toNat / 128 := by
  rw [bitOutLeft, BitVec.toNat_ushiftRight, Nat.shiftRight_eq_div_pow]

theorem toNat_shiftRight_one (src : Byte) : (src >>> 1).toNat = src.toNat / 2 :=
  BitVec.toNat_ushiftRight src 1

theorem toNat_shiftLeft_one (src : Byte) : (src <<< 1).toNat = src.toNat * 2 % 256 := by
  rw [BitVec.toNat_shiftLeft, Nat.shiftLeft_eq]

theorem shiftSource_eq (s : State) (x y : Reg) :
    shiftSource s x y = if s.cfg.shiftQuirk = .useVY then s.getV y else s.getV x := by
  unfold shiftSource
  cases s.cfg.shiftQuirk <;> rfl

/-! ### The statements -/

/-- Settles O12: OR answers `setLogicResult`, whose flag write comes last. -/
theorem orRegisters : Obligations.OrRegisters :=
  fun x y => ⟨decode_orReg x y, fun s => writesRegs_of_exec_setLogicResult (exec_orReg x y s) (BitVec.toNat_or ..)⟩

/-- Settles O13: AND answers `setLogicResult`, whose flag write comes last. -/
theorem andRegisters : Obligations.AndRegisters :=
  fun x y => ⟨decode_andReg x y, fun s => writesRegs_of_exec_setLogicResult (exec_andReg x y s) (BitVec.toNat_and ..)⟩

/-- Settles O14: XOR answers `setLogicResult`, whose flag write comes last. -/
theorem xorRegisters : Obligations.XorRegisters :=
  fun x y => ⟨decode_xorReg x y, fun s => writesRegs_of_exec_setLogicResult (exec_xorReg x y s) (BitVec.toNat_xor ..)⟩

/-- Settles O15: ADD answers `setResultFlag` with the sum and its carry. -/
theorem addSetsCarry : Obligations.AddSetsCarry :=
  fun x y => ⟨decode_addReg x y, fun s => writesRegs_of_exec_setResultFlag (exec_addReg x y s)
    (BitVec.toNat_add ..) (toNat_flagByte_carryOut ..)⟩

/-- Settles O16: SUB answers `setResultFlag` with VX - VY and its not-borrow. -/
theorem subSetsNotBorrow : Obligations.SubSetsNotBorrow :=
  fun x y => ⟨decode_sub x y, fun s => writesRegs_of_exec_setResultFlag (exec_sub x y s)
    (toNat_byte_sub ..) (toNat_flagByte_notBorrow ..)⟩

/-- Settles O17: SHR answers `setResultFlag` with half of the source and its bit 0. -/
theorem shiftRightSetsBitOut : Obligations.ShiftRightSetsBitOut := by
  refine fun x y => ⟨decode_shr x y, ?_⟩
  rintro s _ rfl
  rw [← shiftSource_eq]
  exact writesRegs_of_exec_setResultFlag (exec_shr x y s) (toNat_shiftRight_one _) (toNat_bitOutRight _)

/-- Settles O18: SUBN answers `setResultFlag` with VY - VX and its not-borrow. -/
theorem subnSetsNotBorrow : Obligations.SubnSetsNotBorrow :=
  fun x y => ⟨decode_subn x y, fun s => writesRegs_of_exec_setResultFlag (exec_subn x y s)
    (toNat_byte_sub ..) (toNat_flagByte_notBorrow ..)⟩

/-- Settles O19: SHL answers `setResultFlag` with twice the source and its bit 7. -/
theorem shiftLeftSetsBitOut : Obligations.ShiftLeftSetsBitOut := by
  refine fun x y => ⟨decode_shl x y, ?_⟩
  rintro s _ rfl
  rw [← shiftSource_eq]
  exact writesRegs_of_exec_setResultFlag (exec_shl x y s) (toNat_shiftLeft_one _) (toNat_bitOutLeft _)

/-- Settles O9: LD writes its byte to VX and no other register. -/
theorem loadByteImmediate : Obligations.LoadByteImmediate :=
  fun x nn => ⟨decode_ldImm x nn, fun s => writesRegs_of_exec_setV (exec_ldImm x nn s) rfl⟩

/-- Settles O11: LD writes the old VY to VX and no other register. -/
theorem copyRegister : Obligations.CopyRegister :=
  fun x y => ⟨decode_ldReg x y, fun s => writesRegs_of_exec_setV (exec_ldReg x y s) rfl⟩

end Sys2Proof.Machine
end

section
/-! PROOF. Index register and memory instructions (42_index_memory.md R86, R89 to R91). -/

namespace Sys2Proof.Machine

open Sys2Proof.Statements

/-! ### An error of an instruction is an error of its step (R14, R106) -/

/-- `step` gives `exec` the state with PC advanced, so the condition must not look at PC. -/
theorem raisesWhen_of_exec {i : Instr} {k : Fault} {c : State → Prop} (hexec : ∀ s, c s → exec i s = .fault k)
    (hadvance : ∀ s, c s → c (advancePc s)) : RaisesWhen i k c :=
  ⟨hexec, fun s _ hw hi hc =>
    perform_step_of_fault ((step_of_fetch_decode hw hi).trans (hexec _ (hadvance s hc)))⟩

/-! ### Reading and writing a run of bytes, inside memory and past its end (R13, R37, R38) -/

section
variable {s : State} {a n : Nat} {bs : List Byte}

theorem memWrite_of_le (h : a + bs.length ≤ 4096) :
    memWrite s a bs = .ok (s.setMem (s.mem.setBytes s.cfg a bs)) := by
  rw [memWrite_eq, if_pos (.inr h)]

theorem memWrite_of_gt (hpos : 0 < bs.length) (h : 4096 < a + bs.length) :
    memWrite s a bs = .error .memoryOutOfBounds := by
  rw [memWrite_eq, if_neg (by omega)]

theorem memRead_of_le (h : a + n ≤ 4096) : memRead s a n = .ok ((List.range n).map fun k => s.peek (a + k)) := by
  rw [memRead_eq, if_pos (.inr h)]

theorem memRead_of_gt (hpos : 0 < n) (h : 4096 < a + n) : memRead s a n = .error .memoryOutOfBounds := by
  rw [memRead_eq, if_neg (by omega)]

theorem peek_setBytes_of_getElem? {k : Nat} {b : Byte} (h : bs[k]? = some b) :
    (s.setMem (s.mem.setBytes s.cfg a bs)).peek (a + k) = b := by
  have hpeek := Memory.get_setBytes s.cfg bs s.mem a (a + k)
  rwa [if_pos (Nat.le_add_right a k), Nat.add_sub_cancel_left, List.getD_eq_getElem?_getD, h] at hpeek

theorem peek_setBytes_outside {b : Nat} (h : b < a ∨ a + bs.length ≤ b) :
    (s.setMem (s.mem.setBytes s.cfg a bs)).peek b = s.peek b := by
  have hpeek := Memory.get_setBytes s.cfg bs s.mem a b
  rcases h with hb | hb
  · rwa [if_neg (by omega)] at hpeek
  · rwa [if_pos (by omega), List.getD_eq_default _ _ (by omega)] at hpeek

end

/-! ### LD I (R86) -/

theorem decode_ldI (nnn : Addr) : decode (wordNNN 0xA#4 nnn) = .ok (.ldI nnn) := by simp [decode]

theorem exec_ldI (nnn : Addr) (s : State) : exec (.ldI nnn) s = .next (s.setI (zext16 nnn)) := rfl

/-- Settles O21: I is written once, with the zero-extended NNN. -/
theorem loadIndexImmediate : Obligations.LoadIndexImmediate :=
  fun nnn => ⟨decode_ldI nnn, fun s => ⟨_, exec_ldI nnn s, toNat_zext16 nnn, rfl⟩⟩

/-! ### The memory instructions of family F: decoding and executing (R55) -/

theorem decode_familyF (x : Reg) (nn : Byte) :
    decode (wordXNN 0xF#4 x nn) = decodeF (wordXNN 0xF#4 x nn) := by simp [decode]

theorem decode_ldB (x : Reg) : decode (wordXNN 0xF#4 x 0x33#8) = .ok (.ldB x) := by
  simp [decode_familyF, decodeF]

theorem decode_ldMemStore (x : Reg) : decode (wordXNN 0xF#4 x 0x55#8) = .ok (.ldMemStore x) := by
  simp [decode_familyF, decodeF]

theorem decode_ldMemLoad (x : Reg) : decode (wordXNN 0xF#4 x 0x65#8) = .ok (.ldMemLoad x) := by
  simp [decode_familyF, decodeF]

theorem exec_ldB (x : Reg) (s : State) :
    exec (.ldB x) s = attempt (memWrite s (indexAddr s) (bcdDigits (s.getV x))) .next := rfl

theorem exec_ldMemStore (x : Reg) (s : State) : exec (.ldMemStore x) s =
    attempt (memWrite s (indexAddr s) (dumpBytes s x)) fun t => .next (t.setI (indexAfter s x)) := rfl

theorem exec_ldMemLoad (x : Reg) (s : State) : exec (.ldMemLoad x) s =
    attempt (memRead s (indexAddr s) (x.val + 1)) fun bs => .next ((s.loadV bs).setI (indexAfter s x)) := rfl

/-! ### LD B (R89) -/

theorem length_bcdDigits (b : Byte) : (bcdDigits b).length = 3 := rfl

/-- A digit of `b`, being at most `b`, is stored as the number it is. -/
theorem toNat_peek_bcdDigits {s : State} {a k d : Nat} {b : Byte}
    (hdigit : (bcdDigits b)[k]? = some (BitVec.ofNat 8 d)) (hle : d ≤ b.toNat) :
    ((s.setMem (s.mem.setBytes s.cfg a (bcdDigits b))).peek (a + k)).toNat = d := by
  rw [peek_setBytes_of_getElem? hdigit, BitVec.toNat_ofNat, Nat.mod_eq_of_lt (hle.trans_lt b.isLt)]

theorem exec_ldB_of_lt {x : Reg} {s : State} (h : indexAddr s + 2 < 4096) : exec (.ldB x) s =
    .next (s.setMem (s.mem.setBytes s.cfg (indexAddr s) (bcdDigits (s.getV x)))) := by
  rw [exec_ldB, memWrite_of_le (by rw [length_bcdDigits]; omega), attempt_ok]

theorem exec_ldB_of_ge {x : Reg} {s : State} (h : indexAddr s + 2 ≥ 4096) :
    exec (.ldB x) s = .fault .memoryOutOfBounds := by
  have hlen := length_bcdDigits (s.getV x)
  rw [exec_ldB, memWrite_of_gt (by omega) (by omega), attempt_error]

/-- Settles O24: FX33 is one write of the three digits of VX. -/
theorem bcdStoresThreeDigits : Obligations.BcdStoresThreeDigits := by
  refine fun x => ⟨decode_ldB x, fun s hs => ⟨_, exec_ldB_of_lt hs, ?_, ?_, ?_, fun a ha => ?_, rfl⟩,
    raisesWhen_of_exec (fun _ => exec_ldB_of_ge) fun _ h => h⟩
  · exact toNat_peek_bcdDigits (k := 0) rfl (Nat.div_le_self _ _)
  · exact toNat_peek_bcdDigits (k := 1) rfl ((Nat.mod_le _ _).trans (Nat.div_le_self _ _))
  · exact toNat_peek_bcdDigits (k := 2) rfl (Nat.mod_le _ _)
  · exact peek_setBytes_outside (by rw [length_bcdDigits]; omega)

/-! ### Register dump and load (R90, R91) -/

theorem toNat_indexAfter (s : State) (x : Reg) : (indexAfter s x).toNat = indexUpdated s x := by
  unfold indexAfter indexUpdated
  cases s.cfg.loadStoreQuirk with
  | incXPlus1 => simp [BitVec.toNat_add, Nat.add_assoc]
  | incX => simp [BitVec.toNat_add]
  | unchanged => rfl

theorem exec_ldMemStore_of_lt {x : Reg} {s : State} (h : indexAddr s + x.val < 4096) : exec (.ldMemStore x) s =
    .next ((s.setMem (s.mem.setBytes s.cfg (indexAddr s) (dumpBytes s x))).setI (indexAfter s x)) := by
  rw [exec_ldMemStore, memWrite_of_le (by rw [length_dumpBytes]; omega), attempt_ok]

theorem exec_ldMemStore_of_ge {x : Reg} {s : State} (h : indexAddr s + x.val ≥ 4096) :
    exec (.ldMemStore x) s = .fault .memoryOutOfBounds := by
  have hlen := length_dumpBytes s x
  rw [exec_ldMemStore, memWrite_of_gt (by omega) (by omega), attempt_error]

/-- Settles O25: FX55 is one write of X + 1 bytes, of which byte k is V[k], and then the write of I. -/
theorem dumpStoresRegisters : Obligations.DumpStoresRegisters := by
  refine fun x => ⟨decode_ldMemStore x,
    fun s hs => ⟨_, exec_ldMemStore_of_lt hs, fun k hk => ?_, fun a ha => ?_, toNat_indexAfter s x, rfl⟩,
    raisesWhen_of_exec (fun _ => exec_ldMemStore_of_ge) fun _ h => h⟩
  · have hbyte : (dumpBytes s x)[k.val]? = some (s.getV k) := by rw [getElem?_dumpBytes, if_pos hk]
    rw [State.setI_peek, peek_setBytes_of_getElem? hbyte]
  · have hlen := length_dumpBytes s x
    rw [State.setI_peek, peek_setBytes_outside (by omega)]

theorem exec_ldMemLoad_of_lt {x : Reg} {s : State} (h : indexAddr s + x.val < 4096) : exec (.ldMemLoad x) s =
    .next ((s.loadV ((List.range (x.val + 1)).map fun k => s.peek (indexAddr s + k))).setI (indexAfter s x)) := by
  rw [exec_ldMemLoad, memRead_of_le (by omega), attempt_ok]

theorem exec_ldMemLoad_of_ge {x : Reg} {s : State} (h : indexAddr s + x.val ≥ 4096) :
    exec (.ldMemLoad x) s = .fault .memoryOutOfBounds := by
  rw [exec_ldMemLoad, memRead_of_gt (by omega) (by omega), attempt_error]

/-- A loaded list has no byte for a register above its length, and that register stays. -/
theorem getV_loadV_map_range (s : State) (f : Nat → Byte) (x k : Reg) :
    (s.loadV ((List.range (x.val + 1)).map f)).getV k = if k ≤ x then f k.val else s.getV k := by
  rw [getV_loadV, List.getD_eq_getElem?_getD, List.getElem?_map]
  by_cases hk : k ≤ x
  · rw [if_pos hk, List.getElem?_range (Nat.lt_succ_of_le hk)]
    rfl
  · rw [if_neg hk, List.getElem?_eq_none (by rw [List.length_range]; exact Nat.lt_of_not_le hk)]
    rfl

/-- Settles O26: FX65 is one read of X + 1 bytes, their load into V0 to VX, and then the write of I. -/
theorem loadFillsRegisters : Obligations.LoadFillsRegisters :=
  fun x => ⟨decode_ldMemLoad x,
    fun s hs => ⟨_, exec_ldMemLoad_of_lt hs, getV_loadV_map_range s _ x, toNat_indexAfter s x, rfl⟩,
    raisesWhen_of_exec (fun _ => exec_ldMemLoad_of_ge) fun _ h => h⟩

end Sys2Proof.Machine
end

section
/-! PROOF. Clearing the display (43_display.md R94). -/

namespace Sys2Proof.Machine

open Sys2Proof.Statements

theorem decode_cls : decode 0x00E0#16 = .ok .cls := rfl

theorem exec_cls (s : State) : exec .cls s = .next (s.setFb Framebuffer.blank) := rfl

/-- Settles O27: CLS sets the framebuffer, and nothing else, to the blank grid. -/
theorem clearBlanksDisplay : Obligations.ClearBlanksDisplay :=
  ⟨decode_cls, fun s => ⟨_, exec_cls s, Framebuffer.pixel_blank, rfl⟩⟩

end Sys2Proof.Machine
end

section
/-! PROOF. The delay timer's instructions, the tick, and the timers under a step (44_timers_input.md R99, R101, R103). -/

namespace Sys2Proof.Machine

open Sys2Proof.Statements

/-! ### LD Vx, DT and LD DT, Vx (R99, R101) -/

theorem decode_ldVxDt (x : Reg) : decode (wordXNN 0xF#4 x 0x07#8) = .ok (.ldVxDt x) := by
  simp [decode_familyF, decodeF]

theorem decode_ldDtVx (x : Reg) : decode (wordXNN 0xF#4 x 0x15#8) = .ok (.ldDtVx x) := by
  simp [decode_familyF, decodeF]

theorem exec_ldVxDt (x : Reg) (s : State) : exec (.ldVxDt x) s = .next (s.setV x s.dt) := rfl

theorem exec_ldDtVx (x : Reg) (s : State) : exec (.ldDtVx x) s = .next (s.setDt (s.getV x)) := rfl

theorem exec_ldStVx (x : Reg) (s : State) : exec (.ldStVx x) s = .next (s.setSt (s.getV x)) := rfl

/-- Settles O31: FX07 is one register write, of DT. -/
theorem readDelayTimer : Obligations.ReadDelayTimer :=
  fun x => ⟨decode_ldVxDt x, fun s => writesRegs_of_exec_setV (exec_ldVxDt x s) rfl⟩

/-- Settles O33: FX15 is one write of DT. -/
theorem setDelayTimer : Obligations.SetDelayTimer :=
  fun x => ⟨decode_ldDtVx x, exec_ldDtVx x⟩

/-! ### The tick (R103) -/

theorem perform_tick (s : State) : perform .tick s = (hostTick s, .ok) := rfl

theorem toNat_hostTick_dt (s : State) : (hostTick s).dt.toNat = s.dt.toNat - 1 := toNat_decrement s.dt

theorem toNat_hostTick_st (s : State) : (hostTick s).st.toNat = s.st.toNat - 1 := toNat_decrement s.st

theorem hostTick_eq (s : State) : hostTick s = { s with dt := (hostTick s).dt, st := (hostTick s).st } := rfl

/-! ### The timers under the shared operations -/

/-- Both counters, DT and ST (R26). -/
def State.timers (s : State) : Byte × Byte := (s.dt, s.st)

theorem State.timers_eq_iff {s t : State} : t.timers = s.timers ↔ t.dt = s.dt ∧ t.st = s.st := Prod.mk_inj

section
variable {s t : State} {a : Word} {n : Nat} {bs : List Byte}

theorem timers_skipIf (b : Bool) : (skipIf b s).timers = s.timers := by
  rw [skipIf_eq]
  rfl

theorem timers_setLogicResult (x : Reg) (r : Byte) : (setLogicResult s x r).timers = s.timers := by
  rw [setLogicResult_eq]
  rfl

theorem timers_of_push (h : push a s = .ok t) : t.timers = s.timers := by
  obtain ⟨_, _, _, hframe⟩ := push_ok h
  exact (congrArg State.timers hframe).trans rfl

theorem timers_of_pop (h : pop s = .ok (a, t)) : t.timers = s.timers := by
  obtain ⟨_, _, hframe⟩ := pop_ok h
  exact (congrArg State.timers hframe).trans rfl

theorem timers_of_memWrite (h : memWrite s n bs = .ok t) : t.timers = s.timers := by
  obtain ⟨hframe, _⟩ := memWrite_ok h
  exact (congrArg State.timers hframe).trans rfl

/-- The key wait writes PC or VX, whichever way it goes. -/
theorem timers_of_exec_ldVxK {x : Reg} (h : exec (.ldVxK x) s = .next t) : t.timers = s.timers := by
  change execLdVxK x s = .next t at h
  unfold execLdVxK at h
  split at h <;> cases h <;> rfl

end

/-! ### The timers under an instruction and a step -/

/-- What an instruction that succeeds does to the timers: FX15 and FX18 write their own, every other keeps both. -/
theorem exec_next_timers {i : Instr} {s t : State} (h : exec i s = .next t) :
    t.timers = s.timers ∨ (∃ x, i = .ldDtVx x ∧ t = s.setDt (s.getV x)) ∨
    (∃ x, i = .ldStVx x ∧ t = s.setSt (s.getV x)) := by
  cases i with
  | ldDtVx x =>
    rw [exec_ldDtVx] at h
    cases h
    exact .inr (.inl ⟨x, rfl, rfl⟩)
  | ldStVx x =>
    rw [exec_ldStVx] at h
    cases h
    exact .inr (.inr ⟨x, rfl, rfl⟩)
  | cls | jp _ | jpV0 _ _ | ldImm _ _ | addImm _ _ | ldReg _ _ | addReg _ _ | sub _ _ | shr _ _ | subn _ _ | shl _ _
  | rnd _ _ | ldI _ | addI _ | ldF _ | ldVxDt _ =>
    cases h
    exact .inl rfl
  | seImm _ _ | sneImm _ _ | seReg _ _ | sneReg _ _ =>
    cases h
    exact .inl (timers_skipIf _)
  | orReg _ _ | andReg _ _ | xorReg _ _ =>
    cases h
    exact .inl (timers_setLogicResult _ _)
  | skp _ | sknp _ =>
    obtain ⟨_, _, hnext⟩ := attempt_next.1 h
    cases hnext
    exact .inl (timers_skipIf _)
  | drw _ _ _ | ldMemLoad _ =>
    obtain ⟨_, _, hnext⟩ := attempt_next.1 h
    cases hnext
    exact .inl rfl
  | ret =>
    obtain ⟨_, hpop, hnext⟩ := attempt_next.1 h
    have hkeep := timers_of_pop hpop
    cases hnext
    exact .inl hkeep
  | call _ =>
    obtain ⟨_, hpush, hnext⟩ := attempt_next.1 h
    have hkeep := timers_of_push hpush
    cases hnext
    exact .inl hkeep
  | ldB _ | ldMemStore _ =>
    obtain ⟨_, hwrite, hnext⟩ := attempt_next.1 h
    have hkeep := timers_of_memWrite hwrite
    cases hnext
    exact .inl hkeep
  | ldVxK _ => exact .inl (timers_of_exec_ldVxK h)

/-- A step advances PC, which is no timer, and executes. -/
theorem step_next_timers {s t : State} (h : step s = .next t) :
    (t.dt = s.dt ∨ ∃ w x, fetch s = .ok w ∧ decode w = .ok (.ldDtVx x)) ∧
    (t.st = s.st ∨ ∃ w x, fetch s = .ok w ∧ decode w = .ok (.ldStVx x)) := by
  obtain ⟨w, i, hw, hi, hexec⟩ := step_next.1 h
  rcases exec_next_timers hexec with hkeep | ⟨x, rfl, rfl⟩ | ⟨x, rfl, rfl⟩
  · obtain ⟨hdt, hst⟩ := State.timers_eq_iff.1 hkeep
    exact ⟨.inl hdt, .inl hst⟩
  · exact ⟨.inr ⟨w, x, hw, hi⟩, .inl rfl⟩
  · exact ⟨.inl rfl, .inr ⟨w, x, hw, hi⟩⟩

/-- Settles O56: a tick takes 1 from each counter, stopping at 0; a step writes DT in FX15 and ST in FX18 alone. -/
theorem tickDecrementsTimers : Obligations.TickDecrementsTimers := by
  refine ⟨fun s => ?_, fun _ _ => step_next_timers⟩
  have hdt := toNat_hostTick_dt s
  have hst := toNat_hostTick_st s
  exact ⟨hostTick s, perform_tick s, by omega, by omega, by omega, by omega, hostTick_eq s⟩

end Sys2Proof.Machine
end

section
/-! PROOF. A host operation that returns an error keeps the state (60_exceptions.md R106). -/

namespace Sys2Proof.Machine

/-- Only a fault is settled with an error, and a fault hands the caller's state back. -/
theorem state_of_settle_err {s t : State} {a : Answer} {k : Fault} (h : settle s a = (t, .err k)) : t = s := by
  rcases settle_cases s a with ⟨u, -, hok⟩ | ⟨f, -, herr⟩ | ⟨r, -, hrefused⟩
  · cases hok.symm.trans h
  · cases herr.symm.trans h
    rfl
  · cases hrefused.symm.trans h

/-- Settles O42: `load`, `step` and `setKey` settle their answer; no other operation replies with an error. -/
theorem errorsChangeNothing : Obligations.ErrorsChangeNothing := by
  intro op s t k h
  cases op with
  | load _ | step | setKey _ _ => exact state_of_settle_err h
  | init | reset | tick | framebuffer | soundTimer | delayTimer => cases h

end Sys2Proof.Machine
end

section
/-! PROOF. Decoding and encoding are inverse, and exactly R56's words do not decode (30_encoding.md R55 to R57). -/

namespace Sys2Proof.Machine

open Sys2Proof.Statements

/-! ### Decoding the remaining instructions (R55) -/

theorem decode_ret : decode 0x00EE#16 = .ok .ret := rfl

theorem decode_call (nnn : Addr) : decode (wordNNN 0x2#4 nnn) = .ok (.call nnn) := by simp [decode]

theorem decode_family5 (x y : Reg) (n : BitVec 4) :
    decode (wordXYN 0x5#4 x y n) = decode5 (wordXYN 0x5#4 x y n) := by simp [decode]

theorem decode_seReg (x y : Reg) : decode (wordXYN 0x5#4 x y 0x0#4) = .ok (.seReg x y) := by
  simp [decode_family5, decode5]

theorem decode_addImm (x : Reg) (nn : Byte) : decode (wordXNN 0x7#4 x nn) = .ok (.addImm x nn) := by simp [decode]

theorem decode_family9 (x y : Reg) (n : BitVec 4) :
    decode (wordXYN 0x9#4 x y n) = decode9 (wordXYN 0x9#4 x y n) := by simp [decode]

theorem decode_sneReg (x y : Reg) : decode (wordXYN 0x9#4 x y 0x0#4) = .ok (.sneReg x y) := by
  simp [decode_family9, decode9]

theorem decode_rnd (x : Reg) (nn : Byte) : decode (wordXNN 0xC#4 x nn) = .ok (.rnd x nn) := by simp [decode]

theorem decode_drw (x y : Reg) (n : Fin 16) :
    decode (wordXYN 0xD#4 x y (BitVec.ofFin (w := 4) n)) = .ok (.drw x y n) := by simp [decode]

theorem decode_familyE (x : Reg) (nn : Byte) :
    decode (wordXNN 0xE#4 x nn) = decodeE (wordXNN 0xE#4 x nn) := by simp [decode]

theorem decode_skp (x : Reg) : decode (wordXNN 0xE#4 x 0x9E#8) = .ok (.skp x) := by
  simp [decode_familyE, decodeE]

theorem decode_sknp (x : Reg) : decode (wordXNN 0xE#4 x 0xA1#8) = .ok (.sknp x) := by
  simp [decode_familyE, decodeE]

theorem decode_ldVxK (x : Reg) : decode (wordXNN 0xF#4 x 0x0A#8) = .ok (.ldVxK x) := by
  simp [decode_familyF, decodeF]

theorem decode_ldStVx (x : Reg) : decode (wordXNN 0xF#4 x 0x18#8) = .ok (.ldStVx x) := by
  simp [decode_familyF, decodeF]

theorem decode_addI (x : Reg) : decode (wordXNN 0xF#4 x 0x1E#8) = .ok (.addI x) := by
  simp [decode_familyF, decodeF]

theorem decode_ldF (x : Reg) : decode (wordXNN 0xF#4 x 0x29#8) = .ok (.ldF x) := by
  simp [decode_familyF, decodeF]

/-! ### The round trips -/

/-- BNNN's X is not encoded on its own: it comes back as NNN's top nibble, which `wellFormed` says it is (R71). -/
theorem decode_encode_jpV0 {x : Reg} {nnn : Addr} (h : wellFormed (.jpV0 x nnn) = true) :
    decode (wordNNN 0xB#4 nnn) = .ok (.jpV0 x nnn) := by
  rw [decode_jpV0, fieldX_wordNNN, of_decide_eq_true h]

/-- Settles O39: each constructor's word decodes to it. -/
theorem decodeOfEncode : Obligations.DecodeOfEncode
  | .cls, _ => decode_cls
  | .ret, _ => decode_ret
  | .jp _, _ => decode_jp _
  | .call _, _ => decode_call _
  | .seImm _ _, _ => decode_seImm _ _
  | .sneImm _ _, _ => decode_sneImm _ _
  | .seReg _ _, _ => decode_seReg _ _
  | .ldImm _ _, _ => decode_ldImm _ _
  | .addImm _ _, _ => decode_addImm _ _
  | .ldReg _ _, _ => decode_ldReg _ _
  | .orReg _ _, _ => decode_orReg _ _
  | .andReg _ _, _ => decode_andReg _ _
  | .xorReg _ _, _ => decode_xorReg _ _
  | .addReg _ _, _ => decode_addReg _ _
  | .sub _ _, _ => decode_sub _ _
  | .shr _ _, _ => decode_shr _ _
  | .subn _ _, _ => decode_subn _ _
  | .shl _ _, _ => decode_shl _ _
  | .sneReg _ _, _ => decode_sneReg _ _
  | .ldI _, _ => decode_ldI _
  | .jpV0 _ _, h => decode_encode_jpV0 h
  | .rnd _ _, _ => decode_rnd _ _
  | .drw _ _ _, _ => decode_drw _ _ _
  | .skp _, _ => decode_skp _
  | .sknp _, _ => decode_sknp _
  | .ldVxDt _, _ => decode_ldVxDt _
  | .ldVxK _, _ => decode_ldVxK _
  | .ldDtVx _, _ => decode_ldDtVx _
  | .ldStVx _, _ => decode_ldStVx _
  | .addI _, _ => decode_addI _
  | .ldF _, _ => decode_ldF _
  | .ldB _, _ => decode_ldB _
  | .ldMemStore _, _ => decode_ldMemStore _
  | .ldMemLoad _, _ => decode_ldMemLoad _

/-- A decoded BNNN comes from the word of its NNN, whose field X is NNN's top nibble (R54, R71). -/
theorem wellFormed_of_decode {w : Word} {i : Instr} (h : decode w = .ok i) : wellFormed i = true := by
  cases i with
  | jpV0 x nnn =>
    have hw : wordNNN 0xB#4 nnn = w := encode_of_decode h
    rw [← hw, decode_jpV0, fieldX_wordNNN] at h
    cases h
    exact decide_eq_true rfl
  | _ => rfl

/-- Settles O40: only BNNN could be ill-formed, and a decoded word is made of the fields its instruction carries. -/
theorem encodeOfDecode : Obligations.EncodeOfDecode :=
  fun _ _ h => ⟨wellFormed_of_decode h, encode_of_decode h⟩

/-! ### The illegal words (R56, R57) -/

theorem decode0_error {w : Word} : (∃ e, decode0 w = .error e) ↔ w.toNat ≠ 0x00E0 ∧ w.toNat ≠ 0x00EE := by
  have hcls : w = 0x00E0#16 ↔ w.toNat = 0x00E0 := BitVec.toNat_inj.symm
  have hret : w = 0x00EE#16 ↔ w.toNat = 0x00EE := BitVec.toNat_inj.symm
  unfold decode0
  rw [ne_eq, ne_eq, ← hcls, ← hret]
  split
  · next h => simp [h]
  · split
    · next h => simp [h]
    · next h0 h1 => simp [h0, h1]

theorem decode5_error {w : Word} : (∃ e, decode5 w = .error e) ↔ w.toNat % 16 ≠ 0 := by
  unfold decode5
  rw [← toNat_fieldN]
  split
  · next h => simp [h]
  · next h => simpa using h

theorem decode9_error {w : Word} : (∃ e, decode9 w = .error e) ↔ w.toNat % 16 ≠ 0 := by
  unfold decode9
  rw [← toNat_fieldN]
  split
  · next h => simp [h]
  · next h => simpa using h

theorem decode8_error {w : Word} :
    (∃ e, decode8 w = .error e) ↔ w.toNat % 16 ∈ [8, 9, 0xA, 0xB, 0xC, 0xD, 0xF] := by
  unfold decode8
  rw [← toNat_fieldN]
  split
  case h_10 =>
    have hlt := (fieldN w).isLt
    simp only [Except.error.injEq, exists_eq', List.mem_cons, List.not_mem_nil, or_false, true_iff, imp_false] at *
    omega
  all_goals
    next h => simp [h]

theorem decodeE_error {w : Word} : (∃ e, decodeE w = .error e) ↔ w.toNat % 256 ∉ [0x9E, 0xA1] := by
  unfold decodeE
  rw [← toNat_fieldNN]
  split
  case h_3 h1 h2 => simpa using ⟨h1, h2⟩
  all_goals
    next h => simp [h]

theorem decodeF_error {w : Word} : (∃ e, decodeF w = .error e) ↔
    w.toNat % 256 ∉ [0x07, 0x0A, 0x15, 0x18, 0x1E, 0x29, 0x33, 0x55, 0x65] := by
  unfold decodeF
  rw [← toNat_fieldNN]
  split
  case h_10 h1 h2 h3 h4 h5 h6 h7 h8 h9 => simpa using ⟨h1, h2, h3, h4, h5, h6, h7, h8, h9⟩
  all_goals
    next h => simp [h]

/-- R56's table row by row: the major opcode selects the one row that can hold. -/
theorem decode_error_iff (w : Word) : (∃ e, decode w = .error e) ↔ IllegalWord w.toNat := by
  have hop := toNat_fieldOp w
  have hlt := w.isLt
  unfold decode
  simp only [IllegalWord, List.mem_cons, List.not_mem_nil, or_false]
  split
  case h_1 => rw [decode0_error]; omega
  case h_6 => rw [decode5_error]; omega
  case h_9 => simp only [decode8_error, List.mem_cons, List.not_mem_nil, or_false]; omega
  case h_10 => rw [decode9_error]; omega
  case h_15 => simp only [decodeE_error, List.mem_cons, List.not_mem_nil, or_false]; omega
  case h_16 =>
    have hF : w.toNat / 4096 = 0xF := by
      simp only [imp_false] at *
      omega
    have h0 : ¬ w.toNat < 0x1000 := by omega
    simp [decodeF_error, hF, h0]
  all_goals
    simp only [reduceCtorEq, exists_false, false_iff]
    omega

theorem step_of_illegal {s : State} {w : Word} (hw : fetch s = .ok w) (h : ∃ e, decode w = .error e) :
    step s = .fault .invalidOpcode := by
  obtain ⟨e, he⟩ := h
  exact step_fault.2 (.inr (.inl ⟨w, e, hw, he, rfl⟩))

/-- Settles O37: each family's decoder rejects its row of R56, and the step that fetched the word raises. -/
theorem illegalWordsRaise : Obligations.IllegalWordsRaise :=
  ⟨decode_error_iff, fun _ w hw h => perform_step_of_fault (step_of_illegal hw ((decode_error_iff w).2 h))⟩

/-- Settles O41: each word is its instruction's encoding. -/
theorem exampleWordsDecode : Obligations.ExampleWordsDecode :=
  ⟨decode_ret, decode_jp 0x208, decode_call 0x210, decode_seImm 3 5, decode_sneImm 3 6, decode_seReg 1 2,
    decode_ldImm 0 0x0A, decode_addImm 15 0xFF, decode_addReg 15 1, decode_sneReg 1 2, decode_ldI 0x300,
    decode_jpV0 0x220, decode_rnd 3 0x0F, decode_drw 1 2 5, decode_skp 5, decode_ldB 10⟩

end Sys2Proof.Machine
end

section
/-! PROOF. Skips on registers, the call stack, RET and CALL, and steps as the host sees them (40_control_flow.md R63,
R64, R66, R69, R70; 10_state.md R25; 60_exceptions.md R109). -/

namespace Sys2Proof.Machine

open Sys2Proof.Statements

/-! ### Skips on two registers (R69, R70) -/

theorem decode_family5_error {n : BitVec 4} (x y : Reg) (h : n ≠ 0) :
    ∃ e, decode (wordXYN 0x5#4 x y n) = .error e := by
  rw [decode_family5, decode5_error, ← toNat_fieldN, fieldN_wordXYN]
  exact fun h0 => h (BitVec.eq_of_toNat_eq h0)

theorem decode_family9_error {n : BitVec 4} (x y : Reg) (h : n ≠ 0) :
    ∃ e, decode (wordXYN 0x9#4 x y n) = .error e := by
  rw [decode_family9, decode9_error, ← toNat_fieldN, fieldN_wordXYN]
  exact fun h0 => h (BitVec.eq_of_toNat_eq h0)

theorem exec_seReg (x y : Reg) (s : State) :
    exec (.seReg x y) s = .next (skipIf (s.getV x == s.getV y) s) := rfl

theorem exec_sneReg (x y : Reg) (s : State) :
    exec (.sneReg x y) s = .next (skipIf (s.getV x != s.getV y) s) := by
  rw [bne, beq_eq_decide, ← decide_not]
  rfl

/-- Settles O6: SE answers `skipIf` on equality, and family 5 decodes with the low nibble 0 alone. -/
theorem skipIfEqualRegister : Obligations.SkipIfEqualRegister :=
  fun x y => ⟨decode_seReg x y, fun _ hn _ hw => step_of_illegal hw (decode_family5_error x y hn),
    skipsWhen_of_exec (exec_seReg x y)⟩

/-- Settles O7: SNE answers `skipIf` on inequality, and family 9 decodes with the low nibble 0 alone. -/
theorem skipIfNotEqualRegister : Obligations.SkipIfNotEqualRegister :=
  fun x y => ⟨decode_sneReg x y, fun _ hn _ hw => step_of_illegal hw (decode_family9_error x y hn),
    skipsWhen_of_exec (exec_sneReg x y)⟩

/-! ### Runs of steps (R63, R109, R110) -/

theorem performAll_cons (op : HostOp) (ops : List HostOp) (s : State) : performAll (op :: ops) s =
    ((performAll ops (perform op s).1).1, (perform op s).2 :: (performAll ops (perform op s).1).2) := rfl

theorem perform_step_of_next {s t : State} (h : step s = .next t) : perform .step s = (t, .ok) := by
  rw [perform, h]
  rfl

/-- Settles O35: the two bytes are the word that `fetch` reads. -/
theorem stepRunsDecodedInstruction : Obligations.StepRunsDecodedInstruction := by
  intro s i hpc hi
  have hw : fetch s = .ok (wordOfBytes (s.peek s.pc.toNat) (s.peek (s.pc.toNat + 1))) := by
    rw [fetch_eq, if_neg (by omega)]
  exact step_of_fetch_decode hw hi

/-- Settles O43: a failed step hands the state back, so the next one fails as it did. -/
theorem errorsRepeat : Obligations.ErrorsRepeat := by
  intro s k h n
  induction n with
  | zero => rfl
  | succ n ih => rw [List.replicate_succ, performAll_cons, perform_step_of_fault h, ih, List.replicate_succ]

/-! ### Push and pop (R25) -/

theorem push_of_lt {s : State} (a : Word) (h : s.sp.val < 16) : ∃ t, push a s = .ok t := by
  cases hpush : push a s with
  | ok t => exact ⟨t, rfl⟩
  | error e =>
    obtain ⟨-, hfull⟩ := push_error hpush
    omega

theorem push_of_full {s : State} (a : Word) (h : s.sp.val = 16) : push a s = .error .stackOverflow := by
  cases hpush : push a s with
  | ok t =>
    obtain ⟨hlt, -⟩ := push_ok hpush
    omega
  | error e => rw [(push_error hpush).1]

theorem pop_of_pos {s : State} (h : 0 < s.sp.val) : ∃ a t, pop s = .ok (a, t) := by
  cases hpop : pop s with
  | ok r => exact ⟨r.1, r.2, rfl⟩
  | error e =>
    obtain ⟨-, hempty⟩ := pop_error hpop
    omega

theorem pop_of_empty {s : State} (h : s.sp.val = 0) : pop s = .error .stackUnderflow := by
  cases hpop : pop s with
  | ok r =>
    obtain ⟨hsp, -⟩ := pop_ok hpop
    omega
  | error e => rw [(pop_error hpop).1]

/-- What a pop answers after a push and some changes above it: the pushed word, and the depth from before the push. -/
theorem pop_of_sp_of_top {s : State} {d : Fin 17} {a : Word} (hsp : s.sp.val = d.val + 1)
    (htop : s.stack[d.val]? = some a) : pop s = .ok (a, { s with sp := d }) := by
  obtain ⟨b, u, hpop⟩ := pop_of_pos (s := s) (by omega)
  obtain ⟨hu, hb, hframe⟩ := pop_ok hpop
  have hd : u.sp = d := Fin.ext (by omega)
  rw [hd, htop, Option.some.injEq] at hb
  rw [hpop, hframe, hd, hb]

theorem pushAll_cons_of_push {a : Word} {as : List Word} {s t : State} (h : push a s = .ok t) :
    pushAll (a :: as) s = pushAll as t := by
  rw [pushAll, h]

/-- The last of `n + 1` pops comes after the first `n`. -/
theorem popAll_succ_of_pop {n : Nat} {s t u : State} {as : List Word} {a : Word} (has : popAll n s = .ok (as, t))
    (ha : pop t = .ok (a, u)) : popAll (n + 1) s = .ok (as ++ [a], u) := by
  induction n generalizing s as with
  | zero =>
    cases has
    rw [popAll, ha]
    rfl
  | succ n ih =>
    rw [popAll] at has ⊢
    cases hpop : pop s with
    | error e =>
      rw [hpop] at has
      cases has
    | ok r =>
      obtain ⟨b, v⟩ := r
      rw [hpop] at has
      dsimp only at has ⊢
      cases hrest : popAll n v with
      | error e =>
        rw [hrest] at has
        cases has
      | ok q =>
        rw [hrest] at has
        cases has
        rw [ih hrest]
        rfl

/-- The first word pushed lies below the others, so it is still there when they have been popped. -/
theorem popAll_pushAll (as : List Word) (s : State) (h : s.sp.val + as.length ≤ 16) : ∃ t u,
    pushAll as s = .ok t ∧ t.sp.val = s.sp.val + as.length ∧ popAll as.length t = .ok (as.reverse, u) ∧
    (∀ k : Fin 16, k.val < s.sp.val → u.stack[k.val] = s.stack[k.val]) ∧ u = { s with stack := u.stack } := by
  induction as generalizing s with
  | nil => exact ⟨s, s, rfl, rfl, rfl, fun _ _ => rfl, rfl⟩
  | cons a as ih =>
    rw [List.length_cons] at h ⊢
    have hlt : s.sp.val < 16 := by omega
    obtain ⟨p, hpush⟩ := push_of_lt a hlt
    obtain ⟨-, hsp, hstack, hframe⟩ := push_ok hpush
    obtain ⟨t, u, hall, htop, hpops, hbelow, hu⟩ := ih p (by omega)
    have husp : u.sp.val = s.sp.val + 1 := by rw [hu]; exact hsp
    have hentry : u.stack[s.sp.val] = a := by
      rw [hbelow ⟨s.sp.val, hlt⟩ (by simp only; omega), hstack ⟨s.sp.val, hlt⟩, if_pos rfl]
    have hpop := pop_of_sp_of_top husp (by rw [Vector.getElem?_eq_getElem hlt, hentry])
    refine ⟨t, { u with sp := s.sp }, (pushAll_cons_of_push hpush).trans hall, by omega, ?_, fun k hk => ?_, ?_⟩
    · rw [List.reverse_cons]
      exact popAll_succ_of_pop hpops hpop
    · rw [hbelow k (by omega), hstack k, if_neg (by omega)]
    · rw [hu, hframe]

/-- Settles O51: by induction on the pushed words, of which the first is popped last. -/
theorem callStackIsLifo : Obligations.CallStackIsLifo :=
  ⟨popAll_pushAll, fun a _ => push_of_full a, fun _ => pop_of_empty⟩

/-! ### RET (R64) -/

theorem exec_ret (s : State) : exec .ret s = attempt (pop s) fun r => .next (r.2.setPc r.1) := rfl

theorem exec_ret_of_empty {s : State} (h : s.sp.val = 0) : exec .ret s = .fault .stackUnderflow := by
  rw [exec_ret, pop_of_empty h, attempt_error]

/-- Settles O1: RET is a pop and a jump to what it gave. -/
theorem retPopsReturnAddress : Obligations.RetPopsReturnAddress := by
  refine ⟨decode_ret, fun s hs => ?_, raisesWhen_of_exec (fun _ => exec_ret_of_empty) fun _ h => h⟩
  obtain ⟨a, t, hpop⟩ := pop_of_pos hs
  obtain ⟨hsp, htop, hframe⟩ := pop_ok hpop
  exact ⟨t.setPc a, by rw [exec_ret, hpop, attempt_ok], hsp.symm, htop, congrArg (State.setPc · a) hframe⟩

/-! ### CALL (R66) -/

theorem exec_call (nnn : Addr) (s : State) :
    exec (.call nnn) s = attempt (push s.pc s) fun t => .next (t.setPc (zext16 nnn)) := rfl

theorem exec_call_of_full {nnn : Addr} {s : State} (h : s.sp.val = 16) :
    exec (.call nnn) s = .fault .stackOverflow := by
  rw [exec_call, push_of_full _ h, attempt_error]

theorem exec_call_of_lt {s : State} (nnn : Addr) (h : s.sp.val < 16) : ∃ t, exec (.call nnn) s = .next t ∧
    t.sp.val = s.sp.val + 1 ∧ (∀ k : Fin 16, t.stack[k.val] = if k.val = s.sp.val then s.pc else s.stack[k.val]) ∧
    t.pc.toNat = nnn.toNat ∧ t = { s with stack := t.stack, sp := t.sp, pc := t.pc } := by
  obtain ⟨t, hpush⟩ := push_of_lt s.pc h
  obtain ⟨-, hsp, hstack, hframe⟩ := push_ok hpush
  exact ⟨t.setPc (zext16 nnn), by rw [exec_call, hpush, attempt_ok], hsp, hstack, toNat_zext16 nnn,
    congrArg (State.setPc · (zext16 nnn)) hframe⟩

/-- A CALL of its own address succeeds while the stack has room, and the next step fetches it again. -/
theorem step_call_self {s : State} {w : Word} {nnn : Addr} (hw : fetch s = .ok w) (hi : decode w = .ok (.call nnn))
    (hpc : s.pc.toNat = nnn.toNat) (hsp : s.sp.val < 16) :
    ∃ t, step s = .next t ∧ fetch t = .ok w ∧ t.pc.toNat = nnn.toNat ∧ t.sp.val = s.sp.val + 1 := by
  obtain ⟨t, hexec, htsp, -, htpc, hframe⟩ := exec_call_of_lt (s := advancePc s) nnn hsp
  have hpcs : t.pc = s.pc := BitVec.eq_of_toNat_eq (by rw [htpc, hpc])
  have hfetch : fetch t = fetch s := by
    rw [hframe, hpcs]
    rfl
  exact ⟨t, (step_of_fetch_decode hw hi).trans hexec, hfetch.trans hw, htpc, htsp⟩

/-- With room for `n` more entries, a CALL of its own address succeeds `n` times and then raises. -/
theorem performAll_call_self {w : Word} {nnn : Addr} (hi : decode w = .ok (.call nnn)) (n : Nat) {s : State}
    (hw : fetch s = .ok w) (hpc : s.pc.toNat = nnn.toNat) (hsp : s.sp.val + n = 16) :
    (performAll (List.replicate (n + 1) .step) s).2 = List.replicate n .ok ++ [.err .stackOverflow] := by
  induction n generalizing s with
  | zero =>
    have hfault : step s = .fault .stackOverflow :=
      (step_of_fetch_decode hw hi).trans (exec_call_of_full (s := advancePc s) hsp)
    rw [List.replicate_succ, performAll_cons, perform_step_of_fault hfault]
    rfl
  | succ n ih =>
    obtain ⟨t, hstep, htw, htpc, htsp⟩ := step_call_self hw hi hpc (by omega)
    rw [List.replicate_succ, performAll_cons, perform_step_of_next hstep, ih htw htpc (by omega)]
    rfl

/-- Settles O3: CALL is a push of the advanced PC and a jump; an empty stack has room for 16 of them. -/
theorem callPushesReturnAddress : Obligations.CallPushesReturnAddress :=
  fun nnn => ⟨decode_call nnn, fun _ => exec_call_of_lt nnn,
    raisesWhen_of_exec (fun _ => exec_call_of_full) fun _ h => h,
    fun _ hw hpc hsp => performAll_call_self (decode_call nnn) 16 hw hpc (by omega)⟩

end Sys2Proof.Machine
end

section
/-! PROOF. Additions without a flag, the random byte, the font address, the sound timer and runs of ticks
(41_alu.md R74, R84; 42_index_memory.md R87, R88; 44_timers_input.md R102; 10_state.md R26). -/

namespace Sys2Proof.Machine

open Sys2Proof.Statements

/-! ### ADD Vx, byte (R74) -/

theorem exec_addImm (x : Reg) (nn : Byte) (s : State) :
    exec (.addImm x nn) s = .next (s.setV x (s.getV x + nn)) := rfl

/-- Settles O10: ADD is one register write, of the sum. -/
theorem addByteWritesNoFlag : Obligations.AddByteWritesNoFlag :=
  fun x nn => ⟨decode_addImm x nn, fun s => writesRegs_of_exec_setV (exec_addImm x nn s) (BitVec.toNat_add ..)⟩

/-! ### RND (R84) -/

theorem exec_rnd (x : Reg) (nn : Byte) (s : State) : exec (.rnd x nn) s =
    .next (State.setV { s with draws := s.draws + 1 } x (Config.randomByte s.draws &&& nn)) := rfl

theorem getLsbD_and_of_mask_false {r nn : Byte} {b : Nat} (h : nn.getLsbD b = false) :
    (r &&& nn).getLsbD b = false := by
  rw [BitVec.getLsbD_and, h, Bool.and_false]

/-- Settles O20: RND writes the masked draw to VX and counts it. -/
theorem randomIsMasked : Obligations.RandomIsMasked := by
  refine fun x nn => ⟨decode_rnd x nn, fun s =>
    ⟨_, exec_rnd x nn s, fun r => State.getV_setV _ x r _, fun b hb => ?_, rfl, rfl⟩⟩
  rw [State.getV_setV_same]
  exact getLsbD_and_of_mask_false hb

/-! ### I: ADD I, Vx and LD F, Vx (R87, R88) -/

theorem exec_addI (x : Reg) (s : State) : exec (.addI x) s = .next (s.setI (s.i + (s.getV x).setWidth 16)) := rfl

theorem exec_ldF (x : Reg) (s : State) : exec (.ldF x) s = .next (s.setI (fontAddress s.cfg (s.getV x))) := rfl

theorem toNat_add_setWidth (w : Word) (b : Byte) :
    (w + b.setWidth 16).toNat = (w.toNat + b.toNat) % 65536 := by
  rw [BitVec.toNat_add, BitVec.toNat_setWidth_of_le (by decide)]

theorem toNat_low_nibble (b : Byte) : (b &&& 0x0F#8).toNat = b.toNat % 16 :=
  (BitVec.toNat_and b 0x0F#8).trans (Nat.and_two_pow_sub_one_eq_mod b.toNat 4)

/-- FONT_BASE is at most 432 and a digit at most 15, so the address lies below 0x200 and does not wrap. -/
theorem toNat_fontAddress (c : Config) (b : Byte) :
    (fontAddress c b).toNat = c.fontBase.val + 5 * (b.toNat % 16) ∧ (fontAddress c b).toNat < 0x200 := by
  have hbase := c.fontBase.isLt
  rw [fontAddress, toNat_low_nibble, BitVec.toNat_ofNat, Nat.mod_eq_of_lt (by omega)]
  omega

/-- Settles O22: FX1E is one write of I, of the sum modulo 65536. -/
theorem addToIndexWraps : Obligations.AddToIndexWraps :=
  fun x => ⟨decode_addI x, fun s => ⟨_, exec_addI x s, toNat_add_setWidth _ _, rfl⟩⟩

/-- Settles O23: FX29 is one write of I, of the digit's address. -/
theorem indexPointsAtFontDigit : Obligations.IndexPointsAtFontDigit := by
  refine fun x => ⟨decode_ldF x, fun s => ?_⟩
  obtain ⟨haddr, hlt⟩ := toNat_fontAddress s.cfg (s.getV x)
  exact ⟨_, exec_ldF x s, haddr, hlt, rfl⟩

/-! ### The timers (R26, R102) -/

/-- Settles O34: FX18 is one write of ST. -/
theorem setSoundTimer : Obligations.SetSoundTimer :=
  fun x => ⟨decode_ldStVx x, exec_ldStVx x⟩

/-- Settles O57: by induction on the number of ticks, each of which takes 1 from a counter above 0. -/
theorem ticksCountDownToZero : Obligations.TicksCountDownToZero := by
  intro n
  induction n with
  | zero => exact fun s => ⟨s, rfl, rfl, rfl, rfl⟩
  | succ n ih =>
    intro s
    obtain ⟨t, hrun, hdt, hst, hframe⟩ := ih (hostTick s)
    have hdt1 := toNat_hostTick_dt s
    have hst1 := toNat_hostTick_st s
    refine ⟨t, ?_, by omega, by omega, hframe⟩
    rw [List.replicate_succ, performAll_cons, perform_tick, hrun, List.replicate_succ]

end Sys2Proof.Machine
end

section
/-! PROOF. The keys: skips, the key wait and the host's key changes (44_timers_input.md R97, R98, R100;
60_exceptions.md R114; 70_reset_and_hazards.md R127). -/

namespace Sys2Proof.Machine

open Sys2Proof.Statements

/-! ### SKP and SKNP (R97, R98) -/

theorem exec_skp (x : Reg) (s : State) :
    exec (.skp x) s = attempt (keyIndex (s.getV x)) fun k => .next (skipIf (s.pressed k) s) := rfl

theorem exec_sknp (x : Reg) (s : State) :
    exec (.sknp x) s = attempt (keyIndex (s.getV x)) fun k => .next (skipIf (!s.pressed k) s) := rfl

theorem exec_skp_of_gt {x : Reg} {s : State} (h : (s.getV x).toNat > 15) :
    exec (.skp x) s = .fault .invalidKeyIndex := by
  rw [exec_skp, keyIndex_error.2 ⟨rfl, h⟩, attempt_error]

theorem exec_sknp_of_gt {x : Reg} {s : State} (h : (s.getV x).toNat > 15) :
    exec (.sknp x) s = .fault .invalidKeyIndex := by
  rw [exec_sknp, keyIndex_error.2 ⟨rfl, h⟩, attempt_error]

/-- Settles O29: a valid index is the key whose state decides the skip. -/
theorem skipIfKeyPressed : Obligations.SkipIfKeyPressed := by
  refine fun x => ⟨decode_skp x, fun s k hk => ?_, raisesWhen_of_exec (fun _ => exec_skp_of_gt) fun _ h => h⟩
  rw [exec_skp, keyIndex_ok.2 hk, attempt_ok, skipIf_eq]

/-- Settles O30: the same key decides, its state negated. -/
theorem skipIfKeyNotPressed : Obligations.SkipIfKeyNotPressed := by
  refine fun x => ⟨decode_sknp x, fun s k hk => ?_, raisesWhen_of_exec (fun _ => exec_sknp_of_gt) fun _ h => h⟩
  rw [exec_sknp, keyIndex_ok.2 hk, attempt_ok, skipIf_eq]
  cases s.pressed k <;> rfl

/-! ### LD Vx, K (R100) -/

theorem exec_ldVxK_of_some {x k : Reg} {s : State} (h : lowestPressed s = some k) :
    exec (.ldVxK x) s = .next (s.setV x (BitVec.ofNat 8 k.val)) := by
  rw [exec, execLdVxK, h]

theorem exec_ldVxK_of_none {x : Reg} {s : State} (h : lowestPressed s = none) :
    exec (.ldVxK x) s = .next (s.setPc (s.pc - 2)) := by
  rw [exec, execLdVxK, h]

theorem toNat_keyByte (k : Fin 16) : (BitVec.ofNat 8 k.val).toNat = k.val := by
  have := k.isLt
  rw [BitVec.toNat_ofNat, Nat.mod_eq_of_lt (by omega)]

/-- Settles O32: the two cases are whether `lowestPressed` finds a key. -/
theorem keyWaitStoresLowestKey : Obligations.KeyWaitStoresLowestKey :=
  fun x => ⟨decode_ldVxK x,
    fun _ k hk hlow =>
      writesRegs_of_exec_setV (exec_ldVxK_of_some (lowestPressed_some.2 ⟨hk, hlow⟩)) (toNat_keyByte k),
    fun _ hnone => exec_ldVxK_of_none (lowestPressed_none.2 hnone)⟩

/-! ### The host's `set_key` (R114) -/

theorem perform_setKey_of_gt {k : Nat} {p : Bool} {s : State} (h : k > 15) :
    perform (.setKey k p) s = (s, .err .invalidKeyIndex) := by
  rw [perform, hostSetKey, dif_pos h]
  rfl

theorem perform_setKey (k : Fin 16) (p : Bool) (s : State) :
    perform (.setKey k.val p) s = (s.setKeyAt k p, .ok) := by
  have hk := k.isLt
  rw [perform, hostSetKey, dif_neg (by omega)]
  rfl

/-- Settles O55: an index above 15 is refused, and any other names the one key that is written. -/
theorem setKeyWritesOneKey : Obligations.SetKeyWritesOneKey := by
  intro k p s
  refine ⟨perform_setKey_of_gt, fun hk => ⟨_, perform_setKey ⟨k, by omega⟩ p s, fun j => ?_, rfl⟩⟩
  rw [State.pressed_setKeyAt]
  simp only [Fin.ext_iff]

/-! ### The end of a key wait (R127) -/

/-- The only key pressed is the lowest. -/
theorem lowestPressed_setKeyAt {s : State} (k : Fin 16) (h : ∀ j, s.pressed j = false) :
    lowestPressed (s.setKeyAt k true) = some k := by
  refine lowestPressed_some.2 ⟨?_, fun j hj => ?_⟩
  · rw [State.pressed_setKeyAt, if_pos rfl]
  · rw [State.pressed_setKeyAt, if_neg (ne_of_lt hj), h]

theorem fetch_setKeyAt (s : State) (k : Fin 16) (p : Bool) : fetch (s.setKeyAt k p) = fetch s := rfl

/-- Undoing the advance gives the state back. -/
theorem step_keyWait_of_none {s : State} {w : Word} {x : Reg} (hw : fetch s = .ok w)
    (hi : decode w = .ok (.ldVxK x)) (h : ∀ k, s.pressed k = false) : step s = .next s := by
  have hnone : lowestPressed (advancePc s) = none := lowestPressed_none.2 h
  rw [step_of_fetch_decode hw hi, exec_ldVxK_of_none hnone, advancePc_pc, BitVec.add_sub_cancel, advancePc_setPc_self]

/-- Settles O47: a key change touches neither the fetched word nor the other keys, so the next step ends the wait. -/
theorem keyWaitEndsOnPress : Obligations.KeyWaitEndsOnPress := by
  intro s w x hw hi hnone
  refine ⟨step_keyWait_of_none hw hi hnone, fun k => ?_⟩
  have hlow : lowestPressed (advancePc (s.setKeyAt k true)) = some k := lowestPressed_setKeyAt k hnone
  have hstep := step_of_fetch_decode ((fetch_setKeyAt s k true).trans hw) hi
  rw [exec_ldVxK_of_some hlow] at hstep
  rw [perform_setKey]
  exact ⟨_, hstep, by rw [State.getV_setV_same, toNat_keyByte], rfl⟩

end Sys2Proof.Machine
end

section
/-! PROOF. Bytes that are read back: on the accessors, in FX55 and FX65, by the next fetch, and after `load`
(20_memory.md R46, R49, R50). -/

namespace Sys2Proof.Machine

open Sys2Proof.Statements

/-! ### The accessors (R50) -/

theorem readByte_eq (s : State) (a : Nat) :
    readByte s a = if a < memSize then .ok (s.peek a) else .error .memoryOutOfBounds := rfl

theorem writeByte_of_lt {s : State} {a : Nat} (v : Byte) (h : a < 4096) :
    writeByte s a v = .ok (s.setMem (s.mem.set s.cfg a v)) := by
  rw [writeByte, if_pos h]

/-- Settles O49: a write that is in bounds answers, and the written byte alone has changed. -/
theorem writtenByteIsReadBack : Obligations.WrittenByteIsReadBack := by
  intro s a v ha
  have hwrite := writeByte_of_lt (s := s) v ha
  obtain ⟨hframe, -, hpeek, -⟩ := writeByte_ok hwrite
  refine ⟨_, hwrite, ?_, fun b hb => ?_, hframe⟩
  · rw [readByte_eq, if_pos ha, hpeek, if_pos rfl]
  · rw [readByte_eq, readByte_eq, hpeek, if_neg hb]

/-! ### After a register dump (R46, R50) -/

/-- A dump that answers lay inside memory, and its bytes are the registers. -/
theorem exec_ldMemStore_next {x : Reg} {s t : State} (h : exec (.ldMemStore x) s = .next t) :
    indexAddr s + x.val < 4096 ∧ t.cfg = s.cfg ∧ ∀ k : Reg, k ≤ x → t.peek (indexAddr s + k.val) = s.getV k := by
  obtain ⟨-, hdump, -⟩ := dumpStoresRegisters x
  by_cases hin : indexAddr s + x.val < 4096
  · obtain ⟨u, hu, hbytes, -, -, hframe⟩ := hdump s hin
    cases hu.symm.trans h
    exact ⟨hin, by rw [hframe], hbytes⟩
  · rw [exec_ldMemStore_of_ge (by omega)] at h
    cases h

/-- Settles O48: both bytes of the fetched word are stored registers, and lie inside memory. -/
theorem storedBytesAreFetched : Obligations.StoredBytesAreFetched := by
  intro s t x j k hexec hkj hkx hpc
  have hkx' : k.val ≤ x.val := hkx
  obtain ⟨hin, -, hbytes⟩ := exec_ldMemStore_next hexec
  have hfirst : t.peek t.pc.toNat = s.getV j := by rw [hpc, hbytes j (Fin.le_def.2 (by omega))]
  have hsecond : t.peek (t.pc.toNat + 1) = s.getV k := by rw [hpc, Nat.add_assoc, ← hkj, hbytes k hkx]
  rw [fetch_eq, if_neg (by omega), hfirst, hsecond, wordOfBytes]

theorem State.peek_congr {s t : State} (hmem : s.mem = t.mem) (hcfg : s.cfg = t.cfg) (a : Nat) :
    s.peek a = t.peek a := by
  rw [State.peek, State.peek, hmem, hcfg]

/-- Settles O50: the load reads, from the same addresses of the same memory, the bytes of the dump. -/
theorem dumpThenLoadRestores : Obligations.DumpThenLoadRestores := by
  intro s t x hexec u hmem hcfg hi
  obtain ⟨hin, -, hbytes⟩ := exec_ldMemStore_next hexec
  have haddr : indexAddr u = indexAddr s := congrArg BitVec.toNat hi
  obtain ⟨-, hload, -⟩ := loadFillsRegisters x
  obtain ⟨z, hz, hregs, -, -⟩ := hload u (by rwa [haddr])
  refine ⟨z, hz, fun k hk => ?_⟩
  rw [hregs k, if_pos hk, haddr, State.peek_congr hmem hcfg, hbytes k hk]

/-! ### The host's `load` (R49) -/

theorem hostLoad_of_gt {rom : List Byte} {s : State} (h : 0x200 + rom.length > 4096) :
    hostLoad rom s = .fault .romTooLarge := by
  rw [hostLoad, if_pos h]
  rfl

theorem hostLoad_of_le {rom : List Byte} {s : State} (h : 0x200 + rom.length ≤ 4096) :
    hostLoad rom s = .next (s.setMem (s.mem.setBytes s.cfg 0x200 rom)) := by
  rw [hostLoad, if_neg (Nat.not_lt.2 h)]

/-- Settles O54: a ROM that fits is one write of its bytes at 0x200. -/
theorem loadCopiesRom : Obligations.LoadCopiesRom := by
  intro rom s
  constructor
  · intro hlarge
    rw [perform, hostLoad_of_gt hlarge]
    rfl
  · intro hfits
    refine ⟨_, by rw [perform, hostLoad_of_le hfits, settle, afterCall, replyOf], fun k hk => ?_, fun a ha => ?_, rfl⟩
    · exact peek_setBytes_of_getElem? (List.getElem?_eq_getElem hk)
    · exact peek_setBytes_outside ha

end Sys2Proof.Machine
end

section
/-! PROOF. Drawing once and twice (43_display.md R93, R95; 95_test_vectors.md W5). -/

namespace Sys2Proof.Machine

open Sys2Proof.Statements

/-! ### One draw (R95) -/

theorem exec_drw (x y : Reg) (n : Fin 16) (s : State) : exec (.drw x y n) s =
    attempt (memRead s (indexAddr s) n.val) fun rows =>
      .next ((s.setFb (s.fb.draw (startColumn s x) (startRow s y) rows).1).setV vf
        (flagByte (s.fb.draw (startColumn s x) (startRow s y) rows).2)) := rfl

theorem exec_drw_of_outside {x y : Reg} {n : Fin 16} {s : State}
    (h : 0 < n.val ∧ indexAddr s + n.val - 1 ≥ 4096) : exec (.drw x y n) s = .fault .memoryOutOfBounds := by
  rw [exec_drw, memRead_of_gt h.1 (by omega), attempt_error]

theorem memRead_isOk_of_inside {n : Fin 16} {s : State} (h : n.val = 0 ∨ indexAddr s + n.val - 1 < 4096) :
    ∃ rows, memRead s (indexAddr s) n.val = .ok rows := by
  rw [memRead_eq, if_pos (by omega)]
  exact ⟨_, rfl⟩

/-- The rows read from I make the sprite that `spriteAt` reads byte by byte. -/
theorem spritePixels_of_memRead {s : State} {n : Nat} {rows : List Byte} (h : memRead s (indexAddr s) n = .ok rows)
    (x0 y0 : Nat) (px : Fin 64) (py : Fin 32) : spritePixels x0 y0 rows px py = spriteAt s x0 y0 n px py := by
  obtain ⟨-, hlen, hrows⟩ := memRead_ok h
  rw [spritePixels, spriteAt, hlen]
  by_cases hpy : y0 ≤ py.val ∧ py.val < y0 + n
  · have hrow : rows.getD (py.val - y0) 0 = s.peek (indexAddr s + (py.val - y0)) := by
      rw [List.getD_eq_getElem _ _ (by omega), hrows]
    rw [hrow]
    congr 2
    rw [eq_iff_iff]
    omega
  · have hout : ¬ (y0 ≤ py.val ∧ py.val < y0 + n ∧ x0 ≤ px.val ∧ px.val < x0 + 8) := by omega
    have hout' : ¬ (x0 ≤ px.val ∧ px.val < x0 + 8 ∧ y0 ≤ py.val ∧ py.val < y0 + n) := by omega
    rw [decide_eq_false hout, decide_eq_false hout', Bool.false_and, Bool.false_and]

theorem flagByte_eq_zero_or_one (b : Bool) : flagByte b = 0 ∨ flagByte b = 1 := by cases b <;> decide

theorem flagByte_eq_one {b : Bool} : flagByte b = 1 ↔ b = true := by cases b <;> decide

/-- A set pixel meets a set sprite pixel exactly where XOR leaves it unset. -/
theorem and_eq_true_iff_xor {on old : Bool} : on = true ∧ old = true ↔ old = true ∧ (old ^^ on) = false := by
  cases on <;> cases old <;> decide

/-- Settles O28: the rows are read and checked, the grid is `draw`'s, and its collision flag is VF's last write. -/
theorem drawXorsSprite : Obligations.DrawXorsSprite := by
  refine fun x y n => ⟨decode_drw x y n, fun s hs => ?_, raisesWhen_of_exec (fun _ => exec_drw_of_outside) fun _ h => h⟩
  obtain ⟨rows, hrows⟩ := memRead_isOk_of_inside hs
  obtain ⟨hxor, hflag⟩ := Framebuffer.draw_draws s.fb (startColumn s x) (startRow s y) rows
  refine ⟨_, by rw [exec_drw, hrows, attempt_ok], fun px py => ?_, ?_, ?_, fun r hr => ?_, rfl⟩
  · rw [← spritePixels_of_memRead hrows]
    exact hxor px py
  · rw [State.getV_setV_same]
    exact flagByte_eq_zero_or_one _
  · rw [State.getV_setV_same, flagByte_eq_one, hflag]
    refine exists_congr fun px => exists_congr fun py => ?_
    rw [State.setV_fb, State.setFb_fb, hxor, and_eq_true_iff_xor]
  · rw [State.getV_setV_other _ _ hr, State.setFb_getV]

/-! ### Two draws (W5) -/

/-- A draw that answers did not leave memory. -/
theorem inside_of_exec_drw_next {x y : Reg} {n : Fin 16} {s t : State} (h : exec (.drw x y n) s = .next t) :
    n.val = 0 ∨ indexAddr s + n.val - 1 < 4096 := by
  by_contra hout
  rw [exec_drw_of_outside (by omega)] at h
  cases h

/-- The same draw, at the state after it: memory, I and both coordinates are as they were, and so is the sprite. -/
theorem spriteAt_congr {s t : State} (hframe : t = { s with v := t.v, fb := t.fb }) (x0 y0 n : Nat) (px : Fin 64)
    (py : Fin 32) : spriteAt t x0 y0 n px py = spriteAt s x0 y0 n px py := by
  rw [hframe]
  rfl

/-- Settles O52: the second draw XORs the same sprite, so every pixel is restored; VF says what became unset. -/
theorem drawTwiceRestoresDisplay : Obligations.DrawTwiceRestoresDisplay := by
  intro s t x y n hx hy hexec
  obtain ⟨-, hdraw, -⟩ := drawXorsSprite x y n
  have hin := inside_of_exec_drw_next hexec
  obtain ⟨t', ht, hpix, hvf, hcoll, hregs, hframe⟩ := hdraw s hin
  cases ht.symm.trans hexec
  have hi : indexAddr t = indexAddr s := by rw [hframe]; rfl
  obtain ⟨u, hu, hpix2, -, hcoll2, -, -⟩ := hdraw t (by rwa [hi])
  have hfb : u.fb = s.fb := Framebuffer.ext_pixel fun px py => by
    rw [hpix2, hpix, hregs x hx, hregs y hy, spriteAt_congr hframe, Bool.xor_assoc, Bool.xor_self, Bool.xor_false]
  refine ⟨u, hu, hfb, fun hblank => ⟨hvf.resolve_right fun h1 => ?_, ?_⟩⟩
  · obtain ⟨px, py, hset, -⟩ := hcoll.1 h1
    rw [hblank] at hset
    cases hset
  · rw [hcoll2]
    refine exists_congr fun px => exists_congr fun py => and_iff_left ?_
    rw [hfb, hblank]

end Sys2Proof.Machine
end

section
/-! PROOF. What every step does: when it fails, what it leaves alone, and that it does not read ST (60_exceptions.md
R105, R107; 10_state.md R19 to R28). -/

namespace Sys2Proof.Machine

open Sys2Proof.Statements

/-! ### When the checks of the shared operations fail -/

section
variable {s : State} {e : Fault}

theorem push_error_iff {a : Word} : push a s = .error e ↔ e = .stackOverflow ∧ s.sp.val = 16 :=
  ⟨push_error, fun ⟨he, h⟩ => he ▸ push_of_full a h⟩

theorem pop_error_iff : pop s = .error e ↔ e = .stackUnderflow ∧ s.sp.val = 0 :=
  ⟨pop_error, fun ⟨he, h⟩ => he ▸ pop_of_empty h⟩

theorem memRead_error_iff {a n : Nat} :
    memRead s a n = .error e ↔ e = .memoryOutOfBounds ∧ 0 < n ∧ 4096 < a + n := by
  rw [memRead_eq]
  split
  · simp only [reduceCtorEq, false_iff]
    omega
  · simp only [Except.error.injEq, eq_comm (a := e), iff_self_and]
    omega

theorem memWrite_error_iff {a : Nat} {bs : List Byte} :
    memWrite s a bs = .error e ↔ e = .memoryOutOfBounds ∧ 0 < bs.length ∧ 4096 < a + bs.length := by
  rw [memWrite_eq]
  split
  · simp only [reduceCtorEq, false_iff]
    omega
  · simp only [Except.error.injEq, eq_comm (a := e), iff_self_and]
    omega

theorem fetch_error_iff : fetch s = .error e ↔ e = .memoryOutOfBounds ∧ s.pc.toNat + 1 > 0xFFF := by
  rw [fetch_eq]
  split
  · next h => simp only [Except.error.injEq, eq_comm (a := e), h, and_true]
  · next h => simp only [reduceCtorEq, h, and_false]

end

/-! ### When an instruction and a step fail (R105, R107) -/

section
variable {α : Type} {r : Except Fault α} {f : α → State} {e : Fault}

/-- An instruction with one check fails exactly when the check does. -/
theorem attempt_next_eq_fault : (attempt r fun a => .next (f a)) = .fault e ↔ r = .error e := by
  simp only [attempt_fault, reduceCtorEq, and_false, exists_false, or_false]

theorem attempt_next_ne_refused {q : Refusal} : (attempt r fun a => .next (f a)) ≠ .refused q := by
  cases r <;> nofun

end

theorem exec_ldVxK_next (x : Reg) (s : State) : ∃ t, exec (.ldVxK x) s = .next t := by
  cases h : lowestPressed s with
  | none => exact ⟨_, exec_ldVxK_of_none h⟩
  | some k => exact ⟨_, exec_ldVxK_of_some h⟩

/-- An instruction fails exactly when its one check does; the instructions without a check never do. -/
theorem exec_fault {i : Instr} {s : State} {k : Fault} : exec i s = .fault k ↔ InstrError i s k := by
  cases i with
  | ret => rw [exec_ret, attempt_next_eq_fault, pop_error_iff]; simp [InstrError]
  | call nnn => rw [exec_call, attempt_next_eq_fault, push_error_iff]; simp [InstrError]
  | skp x => rw [exec_skp, attempt_next_eq_fault, keyIndex_error]; simp [InstrError]
  | sknp x => rw [exec_sknp, attempt_next_eq_fault, keyIndex_error]; simp [InstrError]
  | ldB x =>
    refine (attempt_next_eq_fault (f := id)).trans ?_
    have hpast : 0 < 3 ∧ 4096 < indexAddr s + 3 ↔ s.i.toNat + 2 ≥ 4096 := by unfold indexAddr; omega
    rw [memWrite_error_iff, length_bcdDigits, hpast]
    simp [InstrError]
  | ldMemStore x =>
    have hpast : 0 < x.val + 1 ∧ 4096 < indexAddr s + (x.val + 1) ↔ s.i.toNat + x.val ≥ 4096 := by
      unfold indexAddr
      omega
    rw [exec_ldMemStore, attempt_next_eq_fault, memWrite_error_iff, length_dumpBytes, hpast]
    simp [InstrError]
  | ldMemLoad x =>
    have hpast : 0 < x.val + 1 ∧ 4096 < indexAddr s + (x.val + 1) ↔ s.i.toNat + x.val ≥ 4096 := by
      unfold indexAddr
      omega
    rw [exec_ldMemLoad, attempt_next_eq_fault, memRead_error_iff, hpast]
    simp [InstrError]
  | drw x y n =>
    have hpast : 0 < n.val ∧ 4096 < indexAddr s + n.val ↔ 0 < n.val ∧ s.i.toNat + n.val - 1 ≥ 4096 := by
      unfold indexAddr
      omega
    rw [exec_drw, attempt_next_eq_fault, memRead_error_iff, hpast]
    simp [InstrError]
  | ldVxK x =>
    obtain ⟨t, ht⟩ := exec_ldVxK_next x s
    rw [ht]
    simp [InstrError]
  | cls | jp _ | jpV0 _ _ | seImm _ _ | sneImm _ _ | seReg _ _ | sneReg _ _ | ldImm _ _ | addImm _ _ | ldReg _ _
  | orReg _ _ | andReg _ _ | xorReg _ _ | addReg _ _ | sub _ _ | shr _ _ | subn _ _ | shl _ _ | rnd _ _ | ldI _
  | ldVxDt _ | ldDtVx _ | ldStVx _ | addI _ | ldF _ =>
    exact iff_of_false nofun (by simp [InstrError])

/-- Every instruction has a meaning. -/
theorem exec_ne_refused (i : Instr) (s : State) (q : Refusal) : exec i s ≠ .refused q := by
  cases i with
  | ret | call _ | skp _ | sknp _ | drw _ _ _ | ldMemStore _ | ldMemLoad _ => exact attempt_next_ne_refused
  | ldB _ => exact attempt_next_ne_refused (f := id)
  | ldVxK x =>
    obtain ⟨t, ht⟩ := exec_ldVxK_next x s
    rw [ht]
    nofun
  | cls | jp _ | jpV0 _ _ | seImm _ _ | sneImm _ _ | seReg _ _ | sneReg _ _ | ldImm _ _ | addImm _ _ | ldReg _ _
  | orReg _ _ | andReg _ _ | xorReg _ _ | addReg _ _ | sub _ _ | shr _ _ | subn _ _ | shl _ _ | rnd _ _ | ldI _
  | ldVxDt _ | ldDtVx _ | ldStVx _ | addI _ | ldF _ => nofun

theorem step_ne_refused (s : State) (q : Refusal) : step s ≠ .refused q := by
  unfold step
  cases fetch s with
  | error e => nofun
  | ok w =>
    rw [attempt_ok]
    cases decode w with
    | error e => nofun
    | ok i => exact exec_ne_refused i _ q

theorem step_fault_iff {s : State} {k : Fault} : step s = .fault k ↔ StepError s k := by
  rw [step_fault, fetch_error_iff, StepError]
  refine or_congr_right ?_
  constructor
  · rintro (⟨w, e, hw, he, rfl⟩ | ⟨w, i, hw, hi, hexec⟩)
    · exact ⟨w, hw, .inl ⟨rfl, e, he⟩⟩
    · exact ⟨w, hw, .inr ⟨i, hi, (exec_fault (s := advancePc s)).1 hexec⟩⟩
  · rintro ⟨w, hw, ⟨rfl, e, he⟩ | ⟨i, hi, herr⟩⟩
    · exact .inl ⟨w, e, hw, he, rfl⟩
    · exact .inr ⟨w, i, hw, hi, exec_fault.2 herr⟩

/-- Settles O44: fetch, decode and `exec` fail as listed, and a step that neither fails nor is refused succeeds. -/
theorem stepFailsExactlyAsListed : Obligations.StepFailsExactlyAsListed := by
  refine fun s => ⟨fun k => step_fault_iff, fun hnone => ?_⟩
  cases hstep : step s with
  | next t => exact ⟨t, rfl⟩
  | fault k => exact absurd (step_fault_iff.1 hstep) (hnone k)
  | refused q => exact absurd hstep (step_ne_refused s q)

/-! ### What an instruction leaves alone (R19, R20, R22, R25, R27, R28, R36) -/

/-- From `s` to `t`, instruction `i` changed no field but those the rules name for it; the timers, which
`exec_next_timers` speaks of, are left out. -/
structure ChangesOnlyNamed (i : Instr) (s t : State) : Prop where
  key : t.key = s.key
  cfg : t.cfg = s.cfg
  regs : ∀ r, ¬ MayWriteReg s.cfg i r → t.getV r = s.getV r
  pc : ¬ MaySetPc i → t.pc = s.pc
  fb : i ≠ .cls → (∀ x y n, i ≠ .drw x y n) → t.fb = s.fb
  mem : (∀ x, i ≠ .ldB x) → (∀ x, i ≠ .ldMemStore x) → t.mem = s.mem
  callStack : i ≠ .ret → (∀ nnn, i ≠ .call nnn) → t.sp = s.sp ∧ t.stack = s.stack
  index : (∀ nnn, i ≠ .ldI nnn) → (∀ x, i ≠ .addI x) → (∀ x, i ≠ .ldF x) → (∀ x, i ≠ .ldMemStore x) →
    (∀ x, i ≠ .ldMemLoad x) → t.i = s.i
  draws : (∀ x nn, i ≠ .rnd x nn) → t.draws = s.draws

/-- Nothing has changed: the proofs below replace the clauses of the fields that an instruction writes. -/
theorem ChangesOnlyNamed.refl (i : Instr) (s : State) : ChangesOnlyNamed i s s where
  key := rfl
  cfg := rfl
  regs _ _ := rfl
  pc _ := rfl
  fb _ _ := rfl
  mem _ _ := rfl
  callStack _ _ := ⟨rfl, rfl⟩
  index _ _ _ _ _ := rfl
  draws _ := rfl

section
variable {i : Instr} {s t : State} {x : Reg} {r f : Byte}

/-- Registers alone were written. -/
theorem changesOnlyNamed_of_v (hframe : t = { s with v := t.v })
    (hregs : ∀ k, ¬ MayWriteReg s.cfg i k → t.getV k = s.getV k) : ChangesOnlyNamed i s t := by
  rw [hframe]
  exact { ChangesOnlyNamed.refl i s with regs := hregs }

theorem changesOnlyNamed_setV (hi : ∀ k, ¬ MayWriteReg s.cfg i k → k ≠ x) : ChangesOnlyNamed i s (s.setV x r) :=
  changesOnlyNamed_of_v rfl fun k hk => State.getV_setV_other s r (hi k hk)

theorem changesOnlyNamed_setResultFlag (hi : ∀ k, ¬ MayWriteReg s.cfg i k → k ≠ x ∧ k ≠ vf) :
    ChangesOnlyNamed i s (setResultFlag s x r f) := by
  refine changesOnlyNamed_of_v (setResultFlag_eq s x r f) fun k hk => ?_
  obtain ⟨hx, hvf⟩ := hi k hk
  rw [getV_setResultFlag, if_neg hvf, if_neg hx]

theorem changesOnlyNamed_setLogicResult
    (hi : ∀ k, ¬ MayWriteReg s.cfg i k → k ≠ x ∧ ¬ (s.cfg.vfResetQuirk = true ∧ k = vf)) :
    ChangesOnlyNamed i s (setLogicResult s x r) := by
  refine changesOnlyNamed_of_v (setLogicResult_eq s x r) fun k hk => ?_
  obtain ⟨hx, hvf⟩ := hi k hk
  rw [getV_setLogicResult, if_neg hvf, if_neg hx]

/-- PC alone was written. -/
theorem changesOnlyNamed_setPc {w : Word} (hi : MaySetPc i) : ChangesOnlyNamed i s (s.setPc w) :=
  { ChangesOnlyNamed.refl i s with pc := fun hn => absurd hi hn }

theorem changesOnlyNamed_skipIf {b : Bool} (hi : MaySetPc i) : ChangesOnlyNamed i s (skipIf b s) := by
  rw [skipIf_eq]
  exact changesOnlyNamed_setPc hi

/-- The key wait writes VX when a key is pressed, and PC when none is. -/
theorem changesOnlyNamed_of_exec_ldVxK (h : exec (.ldVxK x) s = .next t) : ChangesOnlyNamed (.ldVxK x) s t := by
  cases hlow : lowestPressed s with
  | none =>
    rw [exec_ldVxK_of_none hlow] at h
    cases h
    exact changesOnlyNamed_setPc trivial
  | some k =>
    rw [exec_ldVxK_of_some hlow] at h
    cases h
    exact changesOnlyNamed_setV fun _ hk => hk

theorem changesOnlyNamed_of_pop {a w : Word} (h : pop s = .ok (a, t)) : ChangesOnlyNamed .ret s (t.setPc w) := by
  obtain ⟨-, -, hframe⟩ := pop_ok h
  rw [hframe]
  exact { ChangesOnlyNamed.refl .ret s with
    pc := fun hn => absurd trivial hn
    callStack := fun hn => absurd rfl hn }

theorem changesOnlyNamed_of_push {a w : Word} {nnn : Addr} (h : push a s = .ok t) :
    ChangesOnlyNamed (.call nnn) s (t.setPc w) := by
  obtain ⟨-, -, -, hframe⟩ := push_ok h
  rw [hframe]
  exact { ChangesOnlyNamed.refl (.call nnn) s with
    pc := fun hn => absurd trivial hn
    callStack := fun _ hn => absurd rfl (hn nnn) }

theorem changesOnlyNamed_of_memWrite_ldB {a : Nat} {bs : List Byte} (h : memWrite s a bs = .ok t) :
    ChangesOnlyNamed (.ldB x) s t := by
  obtain ⟨hframe, -⟩ := memWrite_ok h
  rw [hframe]
  exact { ChangesOnlyNamed.refl (.ldB x) s with mem := fun hn => absurd rfl (hn x) }

theorem changesOnlyNamed_of_memWrite_ldMemStore {a : Nat} {bs : List Byte} {w : Word} (h : memWrite s a bs = .ok t) :
    ChangesOnlyNamed (.ldMemStore x) s (t.setI w) := by
  obtain ⟨hframe, -⟩ := memWrite_ok h
  rw [hframe]
  exact { ChangesOnlyNamed.refl (.ldMemStore x) s with
    mem := fun _ hn => absurd rfl (hn x)
    index := fun _ _ _ hn => absurd rfl (hn x) }

/-- FX65 loads no more bytes than it read. -/
theorem changesOnlyNamed_of_memRead_ldMemLoad {a : Nat} {bs : List Byte} {w : Word}
    (h : memRead s a (x.val + 1) = .ok bs) : ChangesOnlyNamed (.ldMemLoad x) s ((s.loadV bs).setI w) := by
  obtain ⟨-, hlen, -⟩ := memRead_ok h
  have hregs : ∀ k, ¬ k ≤ x → ((s.loadV bs).setI w).getV k = s.getV k := fun k hk => by
    have hlt : x.val < k.val := Nat.lt_of_not_le hk
    rw [State.setI_getV, getV_loadV, List.getD_eq_default _ _ (by omega)]
  exact { ChangesOnlyNamed.refl (.ldMemLoad x) s with
    regs := hregs
    index := fun _ _ _ _ hn => absurd rfl (hn x) }

end

/-- Each instruction's writes, by the way it writes them. -/
theorem changesOnlyNamed_of_exec {i : Instr} {s t : State} (h : exec i s = .next t) : ChangesOnlyNamed i s t := by
  cases i with
  | ldImm _ _ | addImm _ _ | ldReg _ _ | ldVxDt _ =>
    cases h
    exact changesOnlyNamed_setV fun _ hk => hk
  | addReg _ _ | sub _ _ | shr _ _ | subn _ _ | shl _ _ =>
    cases h
    exact changesOnlyNamed_setResultFlag fun _ hk => not_or.1 hk
  | orReg _ _ | andReg _ _ | xorReg _ _ =>
    cases h
    exact changesOnlyNamed_setLogicResult fun _ hk => not_or.1 hk
  | jp _ | jpV0 _ _ =>
    cases h
    exact changesOnlyNamed_setPc trivial
  | seImm _ _ | sneImm _ _ | seReg _ _ | sneReg _ _ =>
    cases h
    exact changesOnlyNamed_skipIf trivial
  | skp _ | sknp _ =>
    obtain ⟨_, _, hnext⟩ := attempt_next.1 h
    cases hnext
    exact changesOnlyNamed_skipIf trivial
  | ldVxK _ => exact changesOnlyNamed_of_exec_ldVxK h
  | ret =>
    obtain ⟨_, hpop, hnext⟩ := attempt_next.1 h
    cases hnext
    exact changesOnlyNamed_of_pop hpop
  | call _ =>
    obtain ⟨_, hpush, hnext⟩ := attempt_next.1 h
    cases hnext
    exact changesOnlyNamed_of_push hpush
  | ldB _ =>
    obtain ⟨_, hwrite, hnext⟩ := attempt_next.1 h
    cases hnext
    exact changesOnlyNamed_of_memWrite_ldB hwrite
  | ldMemStore _ =>
    obtain ⟨_, hwrite, hnext⟩ := attempt_next.1 h
    cases hnext
    exact changesOnlyNamed_of_memWrite_ldMemStore hwrite
  | ldMemLoad _ =>
    obtain ⟨_, hread, hnext⟩ := attempt_next.1 h
    cases hnext
    exact changesOnlyNamed_of_memRead_ldMemLoad hread
  | rnd x nn =>
    cases h
    exact { ChangesOnlyNamed.refl (.rnd x nn) s with
      regs := fun _ hk => State.getV_setV_other _ _ hk
      draws := fun hn => absurd rfl (hn x nn) }
  | drw x y n =>
    obtain ⟨_, _, hnext⟩ := attempt_next.1 h
    cases hnext
    exact { ChangesOnlyNamed.refl (.drw x y n) s with
      regs := fun _ hk => State.getV_setV_other _ _ hk
      fb := fun _ hn => absurd rfl (hn x y n) }
  | cls =>
    cases h
    exact { ChangesOnlyNamed.refl .cls s with fb := fun hn => absurd rfl hn }
  | ldI nnn =>
    cases h
    exact { ChangesOnlyNamed.refl (.ldI nnn) s with index := fun hn => absurd rfl (hn nnn) }
  | addI x =>
    cases h
    exact { ChangesOnlyNamed.refl (.addI x) s with index := fun _ hn => absurd rfl (hn x) }
  | ldF x =>
    cases h
    exact { ChangesOnlyNamed.refl (.ldF x) s with index := fun _ _ hn => absurd rfl (hn x) }
  | ldDtVx x =>
    cases h
    exact { ChangesOnlyNamed.refl (.ldDtVx x) s with }
  | ldStVx x =>
    cases h
    exact { ChangesOnlyNamed.refl (.ldStVx x) s with }

/-- Settles O45: the step advances PC and executes `i`; for the timers, `i` is the instruction that was fetched. -/
theorem stepChangesOnlyNamedState : Obligations.StepChangesOnlyNamedState := by
  intro s t w i hw hi hstep
  obtain ⟨key, cfg, regs, pc, fb, mem, callStack, index, draws⟩ :=
    changesOnlyNamed_of_exec ((step_of_fetch_decode hw hi).symm.trans hstep)
  obtain ⟨hdt, hst⟩ := step_next_timers hstep
  have decoded {v : Word} {j : Instr} (hv : fetch s = .ok v) (hj : decode v = .ok j) : i = j := by
    cases hw.symm.trans hv
    cases hi.symm.trans hj
    rfl
  refine ⟨key, cfg, regs, pc, fun hn => hdt.resolve_right ?_, fun hn => hst.resolve_right ?_, fb,
    fun hB hS => ⟨mem hB hS, State.peek_congr (mem hB hS) cfg⟩, callStack, index, draws⟩
  · rintro ⟨v, x, hv, hj⟩
    exact hn x (decoded hv hj)
  · rintro ⟨v, x, hv, hj⟩
    exact hn x (decoded hv hj)

/-! ### The sound timer is not read (R26) -/

/-- The answer with `f` done to its next state. -/
def mapNext (f : State → State) : Answer → Answer
  | .next t => .next (f t)
  | .fault k => .fault k
  | .refused q => .refused q

theorem mapNext_attempt {α : Type} (r : Except Fault α) (k : α → Answer) (f : State → State) :
    mapNext f (attempt r k) = attempt r fun a => mapNext f (k a) := by cases r <;> rfl

theorem attempt_map {α β : Type} (g : α → β) (r : Except Fault α) (k : β → Answer) :
    attempt (r.map g) k = attempt r fun a => k (g a) := by cases r <;> rfl

section
variable {s : State} {b : Byte}

theorem skipIf_setSt (c : Bool) : skipIf c (s.setSt b) = (skipIf c s).setSt b := by cases c <;> rfl

theorem setLogicResult_setSt (x : Reg) (r : Byte) :
    setLogicResult (s.setSt b) x r = (setLogicResult s x r).setSt b := by
  unfold setLogicResult
  rw [State.setSt_cfg]
  split <;> rfl

theorem push_setSt (a : Word) : push a (s.setSt b) = (push a s).map (State.setSt · b) := by
  unfold push
  rw [apply_dite (Except.map _)]
  rfl

theorem pop_setSt : pop (s.setSt b) = (pop s).map fun r => (r.1, r.2.setSt b) := by
  unfold pop
  rw [apply_dite (Except.map _)]
  rfl

theorem memWrite_setSt (a : Nat) (bs : List Byte) :
    memWrite (s.setSt b) a bs = (memWrite s a bs).map (State.setSt · b) := by
  unfold memWrite
  split <;> rfl

theorem fetch_setSt : fetch (s.setSt b) = fetch s := rfl

theorem lowestPressed_setSt : lowestPressed (s.setSt b) = lowestPressed s := rfl

end

/-- ST stays as it was given, but for FX18, which writes it without reading it. -/
theorem exec_setSt (i : Instr) (s : State) (b : Byte) :
    ∃ c, exec i (s.setSt b) = mapNext (State.setSt · c) (exec i s) := by
  cases i with
  | ldStVx x => exact ⟨s.getV x, rfl⟩
  | cls | jp _ | jpV0 _ _ | ldImm _ _ | addImm _ _ | ldReg _ _ | addReg _ _ | sub _ _ | shr _ _ | subn _ _ | shl _ _
  | rnd _ _ | ldI _ | addI _ | ldF _ | ldVxDt _ | ldDtVx _ => exact ⟨b, rfl⟩
  | seImm _ _ | sneImm _ _ | seReg _ _ | sneReg _ _ => exact ⟨b, congrArg Host.Outcome.next (skipIf_setSt _)⟩
  | orReg _ _ | andReg _ _ | xorReg _ _ => exact ⟨b, congrArg Host.Outcome.next (setLogicResult_setSt _ _)⟩
  | skp x =>
    refine ⟨b, ?_⟩
    rw [exec_skp, exec_skp, mapNext_attempt]
    simp only [State.setSt_getV, State.setSt_pressed, skipIf_setSt, mapNext]
  | sknp x =>
    refine ⟨b, ?_⟩
    rw [exec_sknp, exec_sknp, mapNext_attempt]
    simp only [State.setSt_getV, State.setSt_pressed, skipIf_setSt, mapNext]
  | drw x y n =>
    refine ⟨b, ?_⟩
    rw [exec_drw, exec_drw, mapNext_attempt]
    rfl
  | ldMemLoad x =>
    refine ⟨b, ?_⟩
    rw [exec_ldMemLoad, exec_ldMemLoad, mapNext_attempt]
    rfl
  | ret =>
    refine ⟨b, ?_⟩
    rw [exec_ret, exec_ret, mapNext_attempt, pop_setSt, attempt_map]
    rfl
  | call nnn =>
    refine ⟨b, ?_⟩
    rw [exec_call, exec_call, mapNext_attempt, push_setSt, attempt_map]
    rfl
  | ldB x =>
    refine ⟨b, ?_⟩
    rw [exec_ldB, exec_ldB, mapNext_attempt, memWrite_setSt, attempt_map]
    rfl
  | ldMemStore x =>
    refine ⟨b, ?_⟩
    rw [exec_ldMemStore, exec_ldMemStore, mapNext_attempt, memWrite_setSt, attempt_map]
    rfl
  | ldVxK x =>
    refine ⟨b, ?_⟩
    cases hlow : lowestPressed s with
    | none =>
      rw [exec_ldVxK_of_none hlow, exec_ldVxK_of_none (lowestPressed_setSt.trans hlow)]
      rfl
    | some k =>
      rw [exec_ldVxK_of_some hlow, exec_ldVxK_of_some (lowestPressed_setSt.trans hlow)]
      rfl

theorem step_setSt (s : State) (b : Byte) : ∃ c, step (s.setSt b) = mapNext (State.setSt · c) (step s) := by
  unfold step
  rw [fetch_setSt]
  cases fetch s with
  | error e => exact ⟨b, rfl⟩
  | ok w =>
    rw [attempt_ok, attempt_ok]
    cases decode w with
    | error e => exact ⟨b, rfl⟩
    | ok i => exact exec_setSt i (advancePc s) b

/-- Settles O46: with another ST the step gives the same answer, up to ST. -/
theorem stepIgnoresSoundTimer : Obligations.StepIgnoresSoundTimer := by
  intro s b
  obtain ⟨c, hc⟩ := step_setSt s b
  exact ⟨fun k hk => hc.trans (by rw [hk]; rfl), fun t ht => ⟨c, hc.trans (by rw [ht]; rfl)⟩⟩

end Sys2Proof.Machine
end

section
/-! PROOF. Reset, and the invariant of every step and every run (10_state.md R24, R25, R32; 60_exceptions.md R110, R113;
70_reset_and_hazards.md R121). -/

namespace Sys2Proof.Machine

open Sys2Proof.Statements

/-! ### The reset state (R32, R121) -/

section
variable (c : Config) (n : Nat)

theorem getV_resetWith (r : Reg) : (State.resetWith c n).getV r = 0 := by simp [State.getV, State.resetWith]

theorem stack_resetWith (k : Fin 16) : (State.resetWith c n).stack[k.val] = 0 := by simp [State.resetWith]

theorem pixel_resetWith (x : Fin 64) (y : Fin 32) : (State.resetWith c n).fb.pixel x y = false :=
  Framebuffer.pixel_blank x y

theorem pressed_resetWith (k : Fin 16) : (State.resetWith c n).pressed k = false := by
  simp [State.pressed, State.resetWith]

theorem peek_resetWith (a : Nat) : (State.resetWith c n).peek a = resetByte c a := rfl

theorem resetByte_font (k : Fin 80) : resetByte c (c.fontBase.val + k.val) = c.fontData[k.val] := by
  have hk := k.isLt
  simp [resetByte]

theorem resetByte_outside {a : Nat} (h : a < c.fontBase.val ∨ c.fontBase.val + 80 ≤ a) : resetByte c a = 0 := by
  have hout : ¬ (c.fontBase.val ≤ a ∧ a - c.fontBase.val < fontSize) := by
    show ¬ (c.fontBase.val ≤ a ∧ a - c.fontBase.val < 80)
    omega
  rw [resetByte, dif_neg hout]

theorem isResetState_resetWith : IsResetState (State.resetWith c n) where
  v := getV_resetWith c n
  i := rfl
  pc := rfl
  sp := rfl
  stack := stack_resetWith c n
  dt := rfl
  st := rfl
  fb := pixel_resetWith c n
  key := pressed_resetWith c n
  font := resetByte_font c
  zero _ ha := resetByte_outside c ha

/-- No cell is listed, PC is 0x200 and no call-stack entry is valid. -/
theorem inv_resetWith : (State.resetWith c n).Inv where
  memWf := Memory.wf_nil c
  pcLe := show 0x200 ≤ 0x10FE by decide
  stackLe _ hk := absurd hk (Nat.not_lt_zero _)

end

/-- Settles O53: `init()` and `reset()` both leave `State.resetWith` of the parameters the state has. -/
theorem resetLeavesZeroFontState : Obligations.ResetLeavesZeroFontState := by
  refine ⟨isResetState_resetWith _ _, rfl, fun s op hop => ⟨hostReset s, ?_, isResetState_resetWith _ _, rfl⟩⟩
  rcases List.mem_pair.1 hop with rfl | rfl <;> rfl

/-- Settles O58: every reset state is `State.resetWith` of some parameters and draw count. -/
theorem resetMeetsInvariant : Obligations.ResetMeetsInvariant :=
  ⟨inv_resetWith _ _, inv_resetWith⟩

/-! ### The invariant under an instruction -/

/-- Every valid call-stack entry is a return address, at most 0x1000 (R25, R66). -/
def StackBounded (s : State) : Prop := ∀ k : Fin 16, k.val < s.sp.val → s.stack[k.val].toNat ≤ 0x1000

section
variable {i : Instr} {s t : State}

/-- FX33 and FX55 alone write memory, and a write keeps its canonical form. -/
theorem exec_keeps_memWf (h : exec i s = .next t) (hs : s.mem.wf s.cfg) : t.mem.wf t.cfg := by
  cases i with
  | ldB _ =>
    obtain ⟨_, hwrite, hnext⟩ := attempt_next.1 h
    obtain ⟨-, -, -, hwf⟩ := memWrite_ok hwrite
    cases hnext
    exact hwf hs
  | ldMemStore _ =>
    obtain ⟨_, hwrite, hnext⟩ := attempt_next.1 h
    obtain ⟨-, -, -, hwf⟩ := memWrite_ok hwrite
    cases hnext
    exact hwf hs
  | _ =>
    have hkeep := changesOnlyNamed_of_exec h
    rwa [hkeep.mem nofun nofun, hkeep.cfg]

/-- RET uncovers no entry, and CALL pushes the advanced PC. -/
theorem exec_keeps_stackBounded (h : exec i s = .next t) (hpc : s.pc.toNat ≤ 0x1000) (hs : StackBounded s) :
    StackBounded t := by
  cases i with
  | ret =>
    obtain ⟨_, hpop, hnext⟩ := attempt_next.1 h
    obtain ⟨hsp, -, hframe⟩ := pop_ok hpop
    cases hnext
    intro k hk
    rw [State.setPc_sp] at hk
    rw [State.setPc_stack, hframe]
    exact hs k (by omega)
  | call nnn =>
    obtain ⟨u, hpush, hnext⟩ := attempt_next.1 h
    obtain ⟨-, hsp, hstack, -⟩ := push_ok hpush
    cases hnext
    intro k hk
    rw [State.setPc_sp] at hk
    rw [State.setPc_stack, hstack k]
    split
    · exact hpc
    · exact hs k (by omega)
  | _ =>
    obtain ⟨hsp, hstack⟩ := (changesOnlyNamed_of_exec h).callStack nofun nofun
    intro k hk
    rw [hsp] at hk
    simpa only [hstack] using hs k hk

theorem skipIf_pc_le (b : Bool) (hpc : s.pc.toNat ≤ 0x1000) : (skipIf b s).pc.toNat ≤ 0x1002 := by
  rw [skipIf_eq]
  cases b with
  | false => exact hpc.trans (by decide)
  | true =>
    show (s.pc + 2).toNat ≤ 0x1002
    bv_omega

/-- Going back by 2, which the key wait does, does not pass 0 when PC has been advanced. -/
theorem exec_ldVxK_pc_le {x : Reg} (h : exec (.ldVxK x) s = .next t) (hlo : 2 ≤ s.pc.toNat) :
    t.pc.toNat ≤ s.pc.toNat := by
  cases hlow : lowestPressed s with
  | none =>
    rw [exec_ldVxK_of_none hlow] at h
    cases h
    rw [State.setPc_pc]
    bv_omega
  | some k =>
    rw [exec_ldVxK_of_some hlow] at h
    cases h
    exact le_rfl

/-- From an advanced PC that could be fetched: BNNN goes furthest, to 0xFFF + 0xFF. -/
theorem exec_pc_le (h : exec i s = .next t) (hlo : 2 ≤ s.pc.toNat) (hhi : s.pc.toNat ≤ 0x1000)
    (hs : StackBounded s) : t.pc.toNat ≤ 0x10FE := by
  cases i with
  | jp nnn =>
    cases h
    have := nnn.isLt
    rw [State.setPc_pc, toNat_zext16]
    omega
  | jpV0 x nnn =>
    cases h
    have hnnn := nnn.isLt
    have hoffset := (jumpOffset s x).isLt
    rw [State.setPc_pc, toNat_zext16_add]
    omega
  | call nnn =>
    obtain ⟨_, -, hnext⟩ := attempt_next.1 h
    cases hnext
    have := nnn.isLt
    rw [State.setPc_pc, toNat_zext16]
    omega
  | ret =>
    obtain ⟨⟨a, u⟩, hpop, hnext⟩ := attempt_next.1 h
    obtain ⟨hsp, htop, -⟩ := pop_ok hpop
    cases hnext
    have hlt : u.sp.val < 16 := by have := s.sp.isLt; omega
    rw [Vector.getElem?_eq_getElem hlt, Option.some.injEq] at htop
    have hle := hs ⟨u.sp.val, hlt⟩ (by simp only; omega)
    rw [State.setPc_pc, ← htop]
    exact hle.trans (by decide)
  | seImm _ _ | sneImm _ _ | seReg _ _ | sneReg _ _ =>
    cases h
    exact (skipIf_pc_le _ hhi).trans (by decide)
  | skp _ | sknp _ =>
    obtain ⟨_, -, hnext⟩ := attempt_next.1 h
    cases hnext
    exact (skipIf_pc_le _ hhi).trans (by decide)
  | ldVxK _ => exact (exec_ldVxK_pc_le h hlo).trans (hhi.trans (by decide))
  | _ =>
    rw [(changesOnlyNamed_of_exec h).pc id]
    exact hhi.trans (by decide)

end

/-! ### The invariant under a step and a run -/

theorem step_next_cfg {s t : State} (h : step s = .next t) : t.cfg = s.cfg := by
  obtain ⟨_, _, _, _, hexec⟩ := step_next.1 h
  exact (changesOnlyNamed_of_exec hexec).cfg

/-- Settles O59: a fetch at PC at most 0xFFE leaves `exec` an advanced PC between 2 and 0x1000. -/
theorem stepKeepsInvariant : Obligations.StepKeepsInvariant := by
  intro s t hs hstep
  obtain ⟨w, i, hw, -, hexec⟩ := step_next.1 hstep
  obtain ⟨hpc, -⟩ := fetch_ok hw
  have hadv : (advancePc s).pc.toNat = s.pc.toNat + 2 := by
    rw [advancePc_pc]
    bv_omega
  exact ⟨exec_keeps_memWf hexec hs.memWf, exec_pc_le hexec (by omega) (by omega) hs.stackLe,
    exec_keeps_stackBounded hexec (by omega) hs.stackLe⟩

/-- What every host operation keeps: the invariant, and the parameters `c`. -/
def InvUnder (c : Config) (s : State) : Prop := s.Inv ∧ s.cfg = c

section
variable {c : Config} {s t : State}

theorem settle_keeps {a : Answer} (ha : ∀ u, a = .next u → InvUnder c u) (hs : InvUnder c s) :
    InvUnder c (settle s a).1 := by
  rcases settle_cases s a with ⟨u, hu, heq⟩ | ⟨k, -, heq⟩ | ⟨q, -, heq⟩ <;> rw [heq]
  · exact ha u hu
  · exact hs
  · exact hs

theorem step_keeps (hs : InvUnder c s) (h : step s = .next t) : InvUnder c t :=
  ⟨stepKeepsInvariant s t hs.1 h, (step_next_cfg h).trans hs.2⟩

theorem hostLoad_keeps {rom : List Byte} (hs : InvUnder c s) (h : hostLoad rom s = .next t) : InvUnder c t := by
  obtain ⟨hinv, hcfg⟩ := hs
  obtain ⟨-, hframe, -, hwf⟩ := hostLoad_next h
  have hmem := hwf hinv.memWf
  rw [hframe] at hmem ⊢
  exact ⟨⟨hmem, hinv.pcLe, hinv.stackLe⟩, hcfg⟩

theorem hostSetKey_keeps {k : Nat} {p : Bool} (hs : InvUnder c s) (h : hostSetKey k p s = .next t) : InvUnder c t := by
  obtain ⟨hinv, hcfg⟩ := hs
  unfold hostSetKey at h
  split at h <;> cases h
  exact ⟨⟨hinv.memWf, hinv.pcLe, hinv.stackLe⟩, hcfg⟩

theorem perform_keeps (op : HostOp) (hs : InvUnder c s) : InvUnder c (perform op s).1 := by
  cases op with
  | init | reset => exact ⟨inv_resetWith _ _, hs.2⟩
  | load _ => exact settle_keeps (fun _ => hostLoad_keeps hs) hs
  | step => exact settle_keeps (fun _ => step_keeps hs) hs
  | setKey _ _ => exact settle_keeps (fun _ => hostSetKey_keeps hs) hs
  | tick => exact ⟨⟨hs.1.memWf, hs.1.pcLe, hs.1.stackLe⟩, hs.2⟩
  | framebuffer | soundTimer | delayTimer => exact hs

theorem performAll_keeps (ops : List HostOp) (hs : InvUnder c s) : InvUnder c (performAll ops s).1 := by
  induction ops generalizing s with
  | nil => exact hs
  | cons op ops ih => exact ih (perform_keeps op hs)

end

/-- Settles O60: a run starts in a reset state, and every operation keeps the invariant and the parameters. -/
theorem reachableStatesMeetInvariant : Obligations.ReachableStatesMeetInvariant := by
  rintro c _ ⟨n, ops, rfl⟩
  exact performAll_keeps ops ⟨inv_resetWith c n, rfl⟩

end Sys2Proof.Machine
end
